-- ==== Sys2Proof/Word.lean ====
section
/-! DEFINITION. The value widths of the core (00_scope R5, R6): every value is an unsigned bit vector. -/

namespace Sys2Proof

/-- A word, 32 bits (R6). -/
abbrev Word := BitVec 32

/-- A byte, 8 bits (R6). -/
abbrev Byte := BitVec 8

/-- A 64-bit control quantity: `LEN`, `BLK`, `NBLK`, `HLEN` (R25 to R27, R88). -/
abbrev Quad := BitVec 64

/-- The index field `t` of a micro-operation word, 6 bits (R85). -/
abbrev Index := BitVec 6

/-- A micro-operation word, 10 bits (R85). -/
abbrev UWord := BitVec 10

/-- The host command port read as one number `{start, HLEN}`, 65 bits (R88; the notation of the opcode table). -/
abbrev PortWord := BitVec 65

end Sys2Proof
end

