-- ==== Sys2Proof/Machine/Functions.lean ====
section
/-! DEFINITION. The functions of the algorithm (00_scope R8 to R12, 42_compression R121, R123) and the two constant
tables (20_memory R62, R63). -/

namespace Sys2Proof.Machine

/-- 32-bit right rotation (R9), used with 0 < n < 32. -/
def rotr (x : Word) (n : Nat) : Word := x >>> n ||| x <<< (32 - n)

/-- Logical right shift (R9). -/
def shr (x : Word) (n : Nat) : Word := x >>> n

/-- Exclusive OR of three words, the shape five of the six functions share (R10, R11). -/
def xor3 (a b c : Word) : Word := a ^^^ b ^^^ c

/-- `σ0` (R11). -/
def ssig0 (x : Word) : Word := xor3 (rotr x 7) (rotr x 18) (shr x 3)

/-- `σ1` (R11). -/
def ssig1 (x : Word) : Word := xor3 (rotr x 17) (rotr x 19) (shr x 10)

/-- `Σ0` (R11). -/
def bsig0 (x : Word) : Word := xor3 (rotr x 2) (rotr x 13) (rotr x 22)

/-- `Σ1` (R11). -/
def bsig1 (x : Word) : Word := xor3 (rotr x 6) (rotr x 11) (rotr x 25)

/-- `Ch` (R11). -/
def ch (x y z : Word) : Word := (x &&& y) ^^^ (~~~x &&& z)

/-- `Maj` (R11). -/
def maj (x y z : Word) : Word := xor3 (x &&& y) (x &&& z) (y &&& z)

/-- `BE32` (R12): the first byte is the most significant. -/
def be32 (b0 b1 b2 b3 : Byte) : Word := b0 ++ b1 ++ b2 ++ b3

/-- `BYTE_i(w) = w[31-8i : 24-8i]` (R12), i = 0..3. -/
def byteOf (w : Word) (i : Nat) : Byte := w.extractLsb' (24 - 8 * i) 8

/-- `BE64BYTE_i(v) = v[63-8i : 56-8i]` (R12), i = 0..7. -/
def be64Byte (v : Quad) (i : Nat) : Byte := v.extractLsb' (56 - 8 * i) 8

/-- The contents of `KROM` as R62 lays them out, eight rows of eight words. PRESUMED by the spec itself (G1), log
entry 13. -/
def kromRows : Vector (Vector Word 8) 8 :=
  #v[
    #v[0x428a2f98, 0x71374491, 0xb5c0fbcf, 0xe9b5dba5, 0x3956c25b, 0x59f111f1, 0x923f82a4, 0xab1c5ed5],
    #v[0xd807aa98, 0x12835b01, 0x243185be, 0x550c7dc3, 0x72be5d74, 0x80deb1fe, 0x9bdc06a7, 0xc19bf174],
    #v[0xe49b69c1, 0xefbe4786, 0x0fc19dc6, 0x240ca1cc, 0x2de92c6f, 0x4a7484aa, 0x5cb0a9dc, 0x76f988da],
    #v[0x983e5152, 0xa831c66d, 0xb00327c8, 0xbf597fc7, 0xc6e00bf3, 0xd5a79147, 0x06ca6351, 0x14292967],
    #v[0x27b70a85, 0x2e1b2138, 0x4d2c6dfc, 0x53380d13, 0x650a7354, 0x766a0abb, 0x81c2c92e, 0x92722c85],
    #v[0xa2bfe8a1, 0xa81a664b, 0xc24b8b70, 0xc76c51a3, 0xd192e819, 0xd6990624, 0xf40e3585, 0x106aa070],
    #v[0x19a4c116, 0x1e376c08, 0x2748774c, 0x34b0bcb5, 0x391c0cb3, 0x4ed8aa4a, 0x5b9cca4f, 0x682e6ff3],
    #v[0x748f82ee, 0x78a5636f, 0x84c87814, 0x8cc70208, 0x90befffa, 0xa4506ceb, 0xbef9a3f7, 0xc67178f2]]

/-- The word at `KROM` address `t` (R55): row `t div 8`, column `t mod 8` of the table (R62). -/
def kromWord (t : Fin 64) : Word :=
  (kromRows[t.val / 8]'(Nat.div_lt_of_lt_mul t.isLt))[t.val % 8]'(Nat.mod_lt _ (by decide))

/-- `KROM`, the 64 round constants (R55). -/
def krom : Vector Word 64 := Vector.ofFn kromWord

/-- `IVROM`, the initial hash value (R55, R63). PRESUMED by the spec itself (G2), log entry 13. -/
def ivrom : Vector Word 8 :=
  #v[0x6a09e667, 0xbb67ae85, 0x3c6ef372, 0xa54ff53a, 0x510e527f, 0x9b05688c, 0x1f83d9ab, 0x5be0cd19]

/-- `K[t]`, word `t` of `KROM` (R13). -/
def roundConstant (t : Index) : Word := krom[t.toNat]'(t.isLt)

/-- `T1 = h + Σ1(e) + Ch(e,f,g) + K[t] + W[t]` (R121), with `k` = `K[t]`, `w` = `W[t]`. -/
def roundT1 (k w : Word) (r : Vector Word 8) : Word := r[7] + bsig1 r[4] + ch r[4] r[5] r[6] + k + w

/-- `T2 = Σ0(a) + Maj(a,b,c)` (R121). -/
def roundT2 (r : Vector Word 8) : Word := bsig0 r[0] + maj r[0] r[1] r[2]

/-- One round in the index form of R121: `R' = [T1+T2, R[0], R[1], R[2], R[3]+T1, R[4], R[5], R[6]]`. -/
def roundRegs (k w : Word) (r : Vector Word 8) : Vector Word 8 :=
  #v[roundT1 k w r + roundT2 r, r[0], r[1], r[2], r[3] + roundT1 k w r, r[4], r[5], r[6]]

/-- The feed-forward of R122: word by word, modulo 2^32. -/
def addRegs (x y : Vector Word 8) : Vector Word 8 :=
  #v[x[0] + y[0], x[1] + y[1], x[2] + y[2], x[3] + y[3], x[4] + y[4], x[5] + y[5], x[6] + y[6], x[7] + y[7]]

/-- The recurrence of R111 on its four source words `W[t-2]`, `W[t-7]`, `W[t-15]`, `W[t-16]`. -/
def expandWord (w2 w7 w15 w16 : Word) : Word := ssig1 w2 + w7 + ssig0 w15 + w16

/-- Digest byte `n` = `4j + i` is `BYTE_i(H[j])` (R84). -/
def digestByte (x : Vector Word 8) (n : Fin 32) : Byte :=
  byteOf (x[n.val / 4]'(Nat.div_lt_of_lt_mul n.isLt)) (n.val % 4)

/-- The 32 bytes of the digest (R84). -/
def serialise (x : Vector Word 8) : Vector Byte 32 := Vector.ofFn (digestByte x)

end Sys2Proof.Machine
end

