-- ==== Sys2Proof/Config.lean ====
section
/-! DEFINITION. What an implementation fixes (00_scope R5: the one open parameter `PM_CAP`) and the values the spec
leaves open, as constants without a body. -/

namespace Sys2Proof

/-- The configuration argument of the model (R5, R32). It is carried in the state so that `step` can read it, and no
step changes it (log entry 5). -/
structure Config where
  /-- `PM_CAP`, the capacity of the padded-message memory in bytes. -/
  pmCap : Nat
  deriving DecidableEq, Repr

/-- The constraint R5 puts on `PM_CAP`: a multiple of 64, at least 64. -/
abbrev Config.Valid (c : Config) : Prop := c.pmCap % 64 = 0 ∧ 64 ≤ c.pmCap

/-- FREE VALUE (log entry 8, DESIGN CHOICE, safe). R142 states no successor of NEXT when `BLK + 1 > NBLK`, because no
run gets there; R90 and R146 still limit it to the two successors NEXT has. `true` stands for LDW 0, `false` for
ASM. Arguments: `BLK` and `NBLK` before the step. -/
opaque Config.nextTakesLoop : Quad → Quad → Bool

/-- FREE VALUE (log entry 9, DESIGN CHOICE, safe). R142 states no 64-bit value of `BLK` when `BLK + 1` is 2^64, because
no run gets there. Arguments: `BLK` and `NBLK` before the step. -/
opaque Config.blkPastTop : Quad → Quad → Quad

end Sys2Proof
end

