-- ==== Sys2Proof/Syntax.lean ====
section
/-! DEFINITION. The thirteen instructions of spec/opcode_table.json: the twelve micro-operations of 30_encoding R86 and
the host command START of R88; and the two places an instruction word can stand. -/

namespace Sys2Proof

/-- One constructor per row of the opcode table. `t` is the index field as it stands in the word (R87). -/
inductive Instr where
  /-- WAIT, R143. -/
  | wait
  /-- PAD, R100. -/
  | pad
  /-- HINIT, R141. -/
  | hinit
  /-- LDW `t`, R110. -/
  | ldw (t : Index)
  /-- EXPW `t`, R111. -/
  | expw (t : Index)
  /-- RINIT, R120. -/
  | rinit
  /-- ROUND `t`, R121. -/
  | round (t : Index)
  /-- FFWD, R122. -/
  | ffwd
  /-- NEXT, R142. -/
  | next
  /-- ASM, R135. -/
  | asm
  /-- FIN, R144. -/
  | fin
  /-- FAULT, R145. -/
  | fault
  /-- START `len`, R140. -/
  | start (len : Quad)
  deriving DecidableEq, Repr

/-- An instruction word with its format: a micro-operation word as `SEQ` holds it (format U, R85), or the command port
(format H, R88). -/
inductive CodeWord where
  | uop (w : UWord)
  | command (w : PortWord)
  deriving DecidableEq, Repr

end Sys2Proof
end

