-- ==== Sys2Proof/WellFormed.lean ====
section
/-! DEFINITION. Which instructions the encoding admits (30_encoding R86, R90): the index ranges of LDW and EXPW. -/

namespace Sys2Proof

/-- The index range of R86: LDW takes 0..15, EXPW takes 16..63, ROUND takes all 64; nothing else carries an index. -/
def Instr.wellFormed : Instr → Bool
  | .wait => true
  | .pad => true
  | .hinit => true
  | .ldw t => decide (t.toNat < 16)
  | .expw t => decide (16 ≤ t.toNat)
  | .rinit => true
  | .round _ => true
  | .ffwd => true
  | .next => true
  | .asm => true
  | .fin => true
  | .fault => true
  | .start _ => true

end Sys2Proof
end

