-- ==== Sys2Proof/Decode.lean ====
section
/-! DEFINITION. The decoder of 30_encoding R85 to R90, total over all 1024 micro-operation words and over the command
port, the encoder beside it, and the words `SEQ` takes as successors. -/

namespace Sys2Proof

/-- Why a word is no instruction (R90; R88 for the port). -/
inductive DecodeError where
  /-- `opc` is 12..15. -/
  | reservedOpcode
  /-- `t` is outside the range of R86 for its `opc`. -/
  | reservedIndex
  /-- The port's `start` bit is 0: no command is presented. -/
  | noCommand
  deriving DecidableEq, Repr

/-- `word = opc · 64 + t` (R85). -/
def uword (opc : BitVec 4) (t : Index) : UWord := opc ++ t

/-- `SEQ[9:6]` (R24, R85). -/
def opcOf (w : UWord) : BitVec 4 := w.extractLsb' 6 4

/-- `SEQ[5:0]` (R24, R85). -/
def indexOf (w : UWord) : Index := w.extractLsb' 0 6

/-- An opcode that takes no index: `t` must be 0 (R87, R90). -/
def withoutIndex (t : Index) (i : Instr) : Except DecodeError Instr :=
  if t.toNat = 0 then .ok i else .error .reservedIndex

/-- An opcode that takes an index: the range test of R86 and R90. -/
def withIndex (i : Instr) : Except DecodeError Instr :=
  if i.wellFormed then .ok i else .error .reservedIndex

/-- The opcode map of R86 by opcode number and index. -/
def decodeFields (opc : Nat) (t : Index) : Except DecodeError Instr :=
  match opc with
  | 0 => withoutIndex t .wait
  | 1 => withoutIndex t .pad
  | 2 => withoutIndex t .hinit
  | 3 => withIndex (.ldw t)
  | 4 => withIndex (.expw t)
  | 5 => withoutIndex t .rinit
  | 6 => withIndex (.round t)
  | 7 => withoutIndex t .ffwd
  | 8 => withoutIndex t .next
  | 9 => withoutIndex t .asm
  | 10 => withoutIndex t .fin
  | 11 => withoutIndex t .fault
  | _ => .error .reservedOpcode

/-- Format U (R85, R86). -/
def decodeUop (w : UWord) : Except DecodeError Instr := decodeFields (opcOf w).toNat (indexOf w)

/-- The command port with `start` in bit 64 and `HLEN` in bits 63:0 (R88). -/
def commandWord (start : Bool) (hlen : Quad) : PortWord := BitVec.ofBool start ++ hlen

/-- Format H (R88): `start` = 1 presents START with `HLEN` as it stands; `start` = 0 is no command. -/
def decodeCommand (w : PortWord) : Except DecodeError Instr :=
  if w.getLsbD 64 then .ok (.start (w.extractLsb' 0 64)) else .error .noCommand

/-- The decoder of the core. -/
def decode : CodeWord → Except DecodeError Instr
  | .uop w => decodeUop w
  | .command w => decodeCommand w

/-- The encoder, from R86 and R88. -/
def encode : Instr → CodeWord
  | .wait => .uop (uword 0 0)
  | .pad => .uop (uword 1 0)
  | .hinit => .uop (uword 2 0)
  | .ldw t => .uop (uword 3 t)
  | .expw t => .uop (uword 4 t)
  | .rinit => .uop (uword 5 0)
  | .round t => .uop (uword 6 t)
  | .ffwd => .uop (uword 7 0)
  | .next => .uop (uword 8 0)
  | .asm => .uop (uword 9 0)
  | .fin => .uop (uword 10 0)
  | .fault => .uop (uword 11 0)
  | .start len => .command (commandWord true len)

/-- The word WAIT, `0x000`. -/
def seqWait : UWord := uword 0 0
/-- The word PAD, `0x040`. -/
def seqPad : UWord := uword 1 0
/-- The word HINIT, `0x080`. -/
def seqHinit : UWord := uword 2 0
/-- The word LDW `t`, `0x0C0 + t`. -/
def seqLdw (t : Index) : UWord := uword 3 t
/-- The word EXPW `t`, `0x100 + t`. -/
def seqExpw (t : Index) : UWord := uword 4 t
/-- The word RINIT, `0x140`. -/
def seqRinit : UWord := uword 5 0
/-- The word ROUND `t`, `0x180 + t`. -/
def seqRound (t : Index) : UWord := uword 6 t
/-- The word FFWD, `0x1C0`. -/
def seqFfwd : UWord := uword 7 0
/-- The word NEXT, `0x200`. -/
def seqNext : UWord := uword 8 0
/-- The word ASM, `0x240`. -/
def seqAsm : UWord := uword 9 0
/-- The word FIN, `0x280`. -/
def seqFin : UWord := uword 10 0
/-- The word FAULT, `0x2C0`. -/
def seqFault : UWord := uword 11 0

/-- An instruction word as the opcode table numbers its bits. A row of at most 16 bits is a micro-operation word (10
bits, the rest of its whole bytes 0); a longer one is the port word `{start, HLEN}` (65 bits, the rest 0). -/
def tableCodeWord (nbits w : Nat) : Option CodeWord :=
  if nbits ≤ 16 then
    if w < 1024 then some (.uop (BitVec.ofNat 10 w)) else none
  else if nbits ≤ 72 then
    if w < 2 ^ 65 then some (.command (BitVec.ofNat 65 w)) else none
  else none

/-- What the decoder reads from an instruction of the opcode table, as the host numbers its bits. -/
def decodeTableWord (nbits w : Nat) : Option Instr :=
  match tableCodeWord nbits w with
  | none => none
  | some c =>
    match decode c with
    | .ok i => some i
    | .error _ => none

end Sys2Proof
end

