-- ==== Sys2Proof/Machine/State.lean ====
section
/-! DEFINITION. The state of one Engine together with its Host (10_state R20), the reasons the model stops, and the
state after reset (R34). -/

namespace Sys2Proof.Machine

/-- A byte memory as a list of (address, byte), addresses strictly rising. An address that is not listed holds NO VALUE
(R35 for `PM`, R51 for `MSG`). -/
abbrev Memory := List Host.Cell

/-- The canonical form: addresses strictly rising. No byte equals "no value", so every listed byte belongs there. -/
abbrev Memory.wf (m : Memory) : Prop := m.Pairwise (fun x y => x.1 < y.1)

/-- Every listed address is below `bound`. -/
abbrev Memory.below (bound : Nat) (m : Memory) : Prop := ∀ c ∈ m, c.1 < bound

/-- Which agent moves next (00_scope R15, R16; 60_exceptions R166 point 5), and what a Host move carries. -/
inductive Move where
  /-- The Engine takes its step. -/
  | engine
  /-- The Host presents the command port `{start, HLEN}` once (R88). -/
  | port (w : PortWord)
  /-- The Host applies reset (R180). -/
  | rst
  /-- The Host puts a byte at an address of its own memory `MSG` (R50, R168). -/
  | putMsg (addr : Quad) (b : Byte)
  /-- The Host reads STATUS (R150). -/
  | readStatus
  /-- The Host reads `DIGEST[n]` (R150). -/
  | readDigest (n : BitVec 5)
  deriving DecidableEq, Repr

/-- Everything R20 gives the machine, and two fields of the model's own, `cfg` and `inputs`. -/
structure State where
  /-- `H[0..7]`, the hash state (R21). -/
  h : Vector Word 8
  /-- `R[0..7]` = `a..h`, the working registers (R22). -/
  r : Vector Word 8
  /-- `W[0..63]`, the message schedule (R23). -/
  w : Vector Word 64
  /-- `SEQ`, the sequencer: the micro-operation word to execute next (R24). -/
  seq : UWord
  /-- `BLK`, the index of the current block (R25). -/
  blk : Quad
  /-- `NBLK`, the number of blocks (R26). -/
  nblk : Quad
  /-- `LEN`, the message length in bytes (R27). -/
  len : Quad
  /-- `ERR`, the fault code (R28). -/
  err : BitVec 2
  /-- `DIGEST[0..31]` (R30, R54). -/
  digest : Vector Byte 32
  /-- `PM`, the padded-message memory (R52). -/
  pm : Memory
  /-- `MSG`, the message memory (R51). -/
  msg : Memory
  /-- MODEL'S OWN (log entry 5): the configuration argument `PM_CAP` (R5, R32). -/
  cfg : Config
  /-- MODEL'S OWN (log entry 6): the moves still to come, first one first; with the list empty the Engine moves. -/
  inputs : List Move
  deriving DecidableEq, Repr

/-- Why the model stops. None of these is a fault of the core: those are next states (R164). -/
inductive Fault where
  /-- Raised by PAD: `MSG` holds nothing at this address below `LEN`, the lowest such address; the Engine is stuck (R51,
  R168). Safe: nothing is provable of a run past it. -/
  | msgAbsent (addr : Nat)
  /-- Raised by LDW: no step since reset wrote this `PM` address (R35: a read of it is a model fault). Safe. -/
  | pmUnwritten (addr : Nat)
  /-- Raised by LDW: the address is not below `PM_CAP`, so no such byte exists (R50, R52). Safe. -/
  | pmOutside (addr : Nat)
  deriving DecidableEq, Repr

/-- What the model refuses. -/
inductive Refusal where
  /-- Raised by an arm of `exec` that has no meaning yet. Safe. No arm is left so. -/
  | notModelled (mnemonic : String)
  /-- Raised by a Host read of `DIGEST` while not `DONE` (R150, R168). Safe: no value is returned. -/
  | digestNotReadable
  /-- Raised by a Host write of `MSG` while `BUSY` (R65, R168: the Host has no such move). Safe: no value is chosen. -/
  | msgWriteWhileBusy
  deriving DecidableEq, Repr

/-- The state right after reset (R34, R180): `SEQ` = WAIT, `ERR` = 0, `PM` without a value. DESIGN CHOICE: the registers
to which R34 gives no value are 0 (log entry 1), `PM_CAP` is 128 (log entry 5), the Host has put nothing into `MSG`
(log entry 12), and no move waits (log entry 6). -/
def State.reset : State where
  h := Vector.replicate 8 0
  r := Vector.replicate 8 0
  w := Vector.replicate 64 0
  seq := seqWait
  blk := 0
  nblk := 0
  len := 0
  err := 0
  digest := Vector.replicate 32 0
  pm := []
  msg := []
  cfg := { pmCap := 128 }
  inputs := []

end Sys2Proof.Machine
end

