-- ==== Sys2Proof/Machine/Ops.lean ====
section
/-! DEFINITION. The named operations over memory and registers, and fault entry (60_exceptions R164). -/

namespace Sys2Proof.Machine

/-- The byte at `a`, or no value. -/
def Memory.read : Memory → Nat → Option Byte
  | [], _ => none
  | c :: m, a => if c.1 = a then some c.2 else Memory.read m a

/-- Put byte `b` at `a`, keeping the addresses strictly rising. -/
def Memory.write : Memory → Nat → Byte → Memory
  | [], a, b => [(a, b)]
  | c :: m, a, b =>
    if a < c.1 then (a, b) :: c :: m
    else if a = c.1 then (a, b) :: m
    else c :: Memory.write m a b

/-- `MemWrite` (R13): consecutive bytes from `a` upward. -/
def Memory.writeBytes : Memory → Nat → List Byte → Memory
  | m, _, [] => m
  | m, a, b :: bs => Memory.writeBytes (Memory.write m a b) (a + 1) bs

/-- `MemRead` (R13): `n` consecutive bytes from `a` in address order, or the lowest address that holds no value. -/
def Memory.readBytes (m : Memory) : Nat → Nat → Except Nat (List Byte)
  | _, 0 => .ok []
  | a, n + 1 =>
    match m.read a with
    | none => .error a
    | some b =>
      match Memory.readBytes m (a + 1) n with
      | .error x => .error x
      | .ok bs => .ok (b :: bs)

/-- Read byte `a` of `PM`: addresses are 0 .. `PM_CAP` - 1 (R50), and a byte nothing has written has no value (R35). -/
def readPm (s : State) (a : Nat) : Except Fault Byte :=
  if a < s.cfg.pmCap then
    match s.pm.read a with
    | some b => .ok b
    | none => .error (.pmUnwritten a)
  else .error (.pmOutside a)

/-- Read `W[t]` (R23). -/
def getW (s : State) (t : Index) : Word := s.w[t.toNat]'(t.isLt)

/-- Write `W[t]` (R23). -/
def setW (s : State) (t : Index) (v : Word) : State := { s with w := s.w.set t.toNat v t.isLt }

/-- The fault codes of R160. -/
inductive FaultCode where
  | none
  | lengthOverflow
  | capacityFault
  | illegalUop
  deriving DecidableEq, Repr

/-- What `ERR` holds for each (R160). -/
def codeOf : FaultCode → BitVec 2
  | .none => 0
  | .lengthOverflow => 1
  | .capacityFault => 2
  | .illegalUop => 3

/-- The state fault entry leaves (R164): `ERR <- code(F)`, `SEQ <- FAULT`, and nothing else. There is no return from it
(R165): only reset leaves FAULT. -/
def faultEntry (f : FaultCode) (s : State) : State := { s with err := codeOf f, seq := seqFault }

/-- `raise F` (R13, R164): fault entry is the whole effect of the step. -/
def raise (f : FaultCode) (s : State) : Host.Outcome State Fault Refusal := .next (faultEntry f s)

end Sys2Proof.Machine
end

