-- ==== Sys2Proof/Machine/Operands.lean ====
section
/-! DEFINITION. The operand forms (30_encoding R87): what the index `t` selects, and the bytes of the padded message
(R82, R83). -/

namespace Sys2Proof.Machine

/-- `A = 64 · BLK + 4 · t` (R110), ordinary integer arithmetic (R8). -/
def ldwAddr (blk : Quad) (t : Index) : Nat := 64 * blk.toNat + 4 * t.toNat

/-- The big-endian word at four consecutive `PM` addresses (R58, R81). -/
def readPmWord (s : State) (a : Nat) : Except Fault Word :=
  match readPm s a with
  | .error f => .error f
  | .ok b0 =>
    match readPm s (a + 1) with
    | .error f => .error f
    | .ok b1 =>
      match readPm s (a + 2) with
      | .error f => .error f
      | .ok b2 =>
        match readPm s (a + 3) with
        | .error f => .error f
        | .ok b3 => .ok (be32 b0 b1 b2 b3)

/-- The value EXPW `t` computes from its four source words (R111); used with `t` ≥ 16, where no index wraps. -/
def expwValue (s : State) (t : Index) : Word :=
  expandWord (getW s (t - 2)) (getW s (t - 7)) (getW s (t - 15)) (getW s (t - 16))

/-- The word after LDW `t` (R110, R146). -/
def afterLdw (t : Index) : UWord := if t.toNat < 15 then seqLdw (t + 1) else seqExpw 16

/-- The word after EXPW `t` (R111, R146). -/
def afterExpw (t : Index) : UWord := if t.toNat < 63 then seqExpw (t + 1) else seqRinit

/-- The word after ROUND `t` (R121, R146). -/
def afterRound (t : Index) : UWord := if t.toNat < 63 then seqRound (t + 1) else seqFfwd

/-- `k = (55 - LEN) mod 64`, the mathematical remainder (R13, R83). -/
def zeroCount (len : Nat) : Nat := ((55 - (len : Int)) % 64).toNat

/-- `L = LEN + 1 + k + 8` (R83). -/
def paddedLength (len : Nat) : Nat := len + 1 + zeroCount len + 8

/-- `N = L / 64` (R83). -/
def blockCount (len : Nat) : Nat := paddedLength len / 64

/-- The eight bytes of the length field, `BE64BYTE_i(8 · LEN)` for i = 0..7 (R82). -/
def lengthField (len : Nat) : List Byte := (List.range 8).map (be64Byte (BitVec.ofNat 64 (8 * len)))

/-- The layout of R83: the message, `0x80`, `k` zero bytes, the length field. -/
def paddedBytes (m : List Byte) : List Byte :=
  m ++ [0x80] ++ List.replicate (zeroCount m.length) 0 ++ lengthField m.length

end Sys2Proof.Machine
end

