-- ==== Sys2Proof/Machine/Assembly.lean ====
section
/-! DEFINITION. The digest-assembly family (43_digest_assembly): ASM. -/

namespace Sys2Proof.Machine

/-- ASM (R135): all 32 bytes and `SEQ` in one step. -/
def execAsm (s : State) : Host.Outcome State Fault Refusal :=
  .next { s with digest := serialise s.h, seq := seqFin }

end Sys2Proof.Machine
end

