-- ==== Sys2Proof/Machine/Compression.lean ====
section
/-! DEFINITION. The compression family (42_compression): RINIT, ROUND, FFWD. -/

namespace Sys2Proof.Machine

/-- RINIT (R120). -/
def execRinit (s : State) : Host.Outcome State Fault Refusal :=
  .next { s with r := s.h, seq := seqRound 0 }

/-- ROUND `t` (R121): every right-hand side uses the registers from before the round. -/
def execRound (t : Index) (s : State) : Host.Outcome State Fault Refusal :=
  .next { s with r := roundRegs (roundConstant t) (getW s t) s.r, seq := afterRound t }

/-- FFWD (R122). -/
def execFfwd (s : State) : Host.Outcome State Fault Refusal :=
  .next { s with h := addRegs s.h s.r, seq := seqNext }

end Sys2Proof.Machine
end

