-- ==== Sys2Proof/Machine/Flags.lean ====
section
/-! DEFINITION. The status flags (10_state R29) and the status word (30_encoding R89). No instruction computes an
arithmetic flag (R29). -/

namespace Sys2Proof.Machine

/-- IDLE: `SEQ` = WAIT (R29). -/
def idle (s : State) : Bool := s.seq == seqWait

/-- `DONE`: `SEQ` = FIN (R29). -/
def done (s : State) : Bool := s.seq == seqFin

/-- `FAULTED`: `SEQ` = FAULT (R29). -/
def faulted (s : State) : Bool := s.seq == seqFault

/-- `BUSY`: `SEQ` is none of WAIT, FIN, FAULT; the Engine has a step (R29, R16). -/
def busy (s : State) : Bool := !(idle s || done s || faulted s)

/-- The status word: `ERR` in bits 3:2, `DONE` in bit 1, `BUSY` in bit 0 (R89). -/
def statusWord (s : State) : BitVec 4 := s.err ++ BitVec.ofBool (done s) ++ BitVec.ofBool (busy s)

end Sys2Proof.Machine
end

