-- ==== Sys2Proof/Machine/Orchestration.lean ====
section
/-! DEFINITION. The orchestration family (44_orchestration): START, HINIT, NEXT, WAIT, FIN, FAULT. -/

namespace Sys2Proof.Machine

/-- START `len` (R140): accepted in IDLE and DONE; in BUSY and FAULTED it is ignored and nothing changes. -/
def execStart (len : Quad) (s : State) : Host.Outcome State Fault Refusal :=
  if idle s || done s then .next { s with len := len, seq := seqPad } else .next s

/-- HINIT (R141). -/
def execHinit (s : State) : Host.Outcome State Fault Refusal :=
  .next { s with h := ivrom, blk := 0, seq := seqLdw 0 }

/-- `BLK + 1` as NEXT writes it (R142). Where the sum is 2^64 the spec states no value: free (log entry 9). -/
def blkAfterNext (blk nblk : Quad) : Quad :=
  if blk.toNat + 1 < 2 ^ 64 then blk + 1 else Config.blkPastTop blk nblk

/-- The word after NEXT (R142), compared as integers (R8). Where `BLK + 1 > NBLK` the spec states no successor: one of
NEXT's two, free which (log entry 8). -/
def afterNext (blk nblk : Quad) : UWord :=
  if blk.toNat + 1 < nblk.toNat then seqLdw 0
  else if blk.toNat + 1 = nblk.toNat then seqAsm
  else if Config.nextTakesLoop blk nblk then seqLdw 0 else seqAsm

/-- NEXT (R142). -/
def execNext (s : State) : Host.Outcome State Fault Refusal :=
  .next { s with blk := blkAfterNext s.blk s.nblk, seq := afterNext s.blk s.nblk }

/-- WAIT (R143): the Engine has no step; no state changes (log entry 7). -/
def execWait (s : State) : Host.Outcome State Fault Refusal := .next s

/-- FIN (R144): the Engine has no step; no state changes (log entry 7). -/
def execFin (s : State) : Host.Outcome State Fault Refusal := .next s

/-- FAULT (R145): the Engine has no step; no state changes (log entry 7). -/
def execFault (s : State) : Host.Outcome State Fault Refusal := .next s

end Sys2Proof.Machine
end

