-- ==== Sys2Proof/Machine/Padding.lean ====
section
/-! DEFINITION. The padding family (40_padding): PAD. -/

namespace Sys2Proof.Machine

/-- The effect of PAD once the message bytes `m` are read (R100): `PM[0..L-1]`, `NBLK` and `SEQ`. -/
def padWith (m : List Byte) (s : State) : State :=
  { s with
    pm := s.pm.writeBytes 0 (paddedBytes m)
    nblk := BitVec.ofNat 64 (blockCount m.length)
    seq := seqHinit }

/-- PAD (R100): the two fault tests first, in this order (R161, R162, R166), then the padded message. A message byte the
Host never put leaves the Engine stuck (R51). -/
def execPad (s : State) : Host.Outcome State Fault Refusal :=
  if 2 ^ 61 ≤ s.len.toNat then raise .lengthOverflow s
  else if s.cfg.pmCap < paddedLength s.len.toNat then raise .capacityFault s
  else
    match s.msg.readBytes 0 s.len.toNat with
    | .error a => .fault (.msgAbsent a)
    | .ok m => .next (padWith m s)

end Sys2Proof.Machine
end

