-- ==== Sys2Proof/Machine/Schedule.lean ====
section
/-! DEFINITION. The message-schedule family (41_schedule): LDW, EXPW. -/

namespace Sys2Proof.Machine

/-- LDW `t` (R110). With `t` ≥ 16 the word is reserved (R90) and the step raises IllegalUop (R163). -/
def execLdw (t : Index) (s : State) : Host.Outcome State Fault Refusal :=
  if t.toNat < 16 then
    match readPmWord s (ldwAddr s.blk t) with
    | .error f => .fault f
    | .ok v => .next { setW s t v with seq := afterLdw t }
  else raise .illegalUop s

/-- EXPW `t` (R111). With `t` < 16 the word is reserved (R90) and the step raises IllegalUop (R163). -/
def execExpw (t : Index) (s : State) : Host.Outcome State Fault Refusal :=
  if 16 ≤ t.toNat then .next { setW s t (expwValue s t) with seq := afterExpw t }
  else raise .illegalUop s

end Sys2Proof.Machine
end

