-- ==== Sys2Proof/Machine/Dispatch.lean ====
section
/-! DEFINITION. One arm per instruction, each one direct call of its meaning. -/

namespace Sys2Proof.Machine

/-- What each instruction does. -/
def exec (i : Instr) (s : State) : Host.Outcome State Fault Refusal :=
  match i with
  | .wait => Sys2Proof.Machine.execWait s
  | .pad => Sys2Proof.Machine.execPad s
  | .hinit => Sys2Proof.Machine.execHinit s
  | .ldw t => Sys2Proof.Machine.execLdw t s
  | .expw t => Sys2Proof.Machine.execExpw t s
  | .rinit => Sys2Proof.Machine.execRinit s
  | .round t => Sys2Proof.Machine.execRound t s
  | .ffwd => Sys2Proof.Machine.execFfwd s
  | .next => Sys2Proof.Machine.execNext s
  | .asm => Sys2Proof.Machine.execAsm s
  | .fin => Sys2Proof.Machine.execFin s
  | .fault => Sys2Proof.Machine.execFault s
  | .start len => Sys2Proof.Machine.execStart len s

end Sys2Proof.Machine
end

