-- ==== Sys2Proof/Machine/Moves.lean ====
section
/-! DEFINITION. The moves of the two agents: the Engine's step (00_scope R16, 30_encoding R90) and the Host's moves
(R140, R150, R168, R180). -/

namespace Sys2Proof.Machine

/-- The Engine's step: the word in `SEQ` is the instruction (R24, R68); a reserved word raises IllegalUop (R163). -/
def engineStep (s : State) : Host.Outcome State Fault Refusal :=
  match decode (.uop s.seq) with
  | .ok i => exec i s
  | .error _ => raise .illegalUop s

/-- The command port is presented (R88): START if `start` = 1, and no command, so no effect, if `start` = 0. -/
def presentPort (w : PortWord) (s : State) : Host.Outcome State Fault Refusal :=
  match decode (.command w) with
  | .ok i => exec i s
  | .error _ => .next s

/-- What reset leaves (R180): `SEQ` = WAIT, `ERR` = 0, `PM` without a value, `MSG` untouched. DESIGN CHOICE: the other
registers, which R180 leaves with no value, hold what `State.reset` names (log entry 10). -/
def afterReset (s : State) : State :=
  { State.reset with msg := s.msg, cfg := s.cfg, inputs := s.inputs }

/-- The Host's read of STATUS, allowed in every state (R150). -/
def readStatus (s : State) : BitVec 4 := statusWord s

/-- The Host's read of `DIGEST[n]` (R150): only while `DONE`; otherwise the model refuses it. -/
def readDigest (n : BitVec 5) (s : State) : Except Refusal Byte :=
  if done s then .ok (s.digest[n.toNat]'(n.isLt)) else .error .digestNotReadable

/-- The Host's write of one byte of `MSG` (R50): refused while `BUSY` (R168). -/
def putMsg (addr : Quad) (b : Byte) (s : State) : Host.Outcome State Fault Refusal :=
  if busy s then .refused .msgWriteWhileBusy else .next { s with msg := s.msg.write addr.toNat b }

/-- One move of either agent. A read changes nothing (R150). -/
def performMove (m : Move) (s : State) : Host.Outcome State Fault Refusal :=
  match m with
  | .engine => engineStep s
  | .port w => presentPort w s
  | .rst => .next (afterReset s)
  | .putMsg addr b => putMsg addr b s
  | .readStatus => .next s
  | .readDigest n =>
    match readDigest n s with
    | .ok _ => .next s
    | .error r => .refused r

/-- The next move waiting, or the Engine's step if none waits (log entry 6). -/
def nextMove (s : State) : Move :=
  match s.inputs with
  | [] => .engine
  | m :: _ => m

/-- The state with the next move taken off the list. -/
def takeMove (s : State) : State := { s with inputs := s.inputs.tail }

/-- Place an instruction word where the next step fetches: a micro-operation word in `SEQ` with the Engine to move, a
command on the port (log entry 11). -/
def placeWord (c : CodeWord) (s : State) : State :=
  match c with
  | .uop w => { s with seq := w, inputs := .engine :: s.inputs }
  | .command w => { s with inputs := .port w :: s.inputs }

end Sys2Proof.Machine
end

