-- ==== Sys2Proof/Machine/Step.lean ====
section
/-! DEFINITION. One step of the whole machine: the next move is taken off the list and performed. -/

namespace Sys2Proof.Machine

/-- One atomic move of one agent (00_scope R16, 60_exceptions R166 point 5). -/
def step (s : State) : Host.Outcome State Fault Refusal := performMove (nextMove s) (takeMove s)

/-- `s` with the opcode table's instruction word placed where `step` fetches its next instruction (log entry 11). -/
def State.withFetchWord (s : State) (nbits w : Nat) : State :=
  match tableCodeWord nbits w with
  | none => s
  | some c => placeWord c s

end Sys2Proof.Machine
end

