-- ==== Sys2Proof/Machine/Reference.lean ====
section
/-! DEFINITION. The functions the spec says a run computes (30_encoding R83, 41_schedule R112, 42_compression R123,
44_orchestration R147), on data alone: no machine state occurs in them. -/

namespace Sys2Proof.Machine

/-- `PadByte(n)` of the message `m` (R83), for n below the padded length. -/
def padByte (m : List Byte) (n : Nat) : Byte :=
  if n < m.length then m.getD n 0
  else if n = m.length then 0x80
  else if n ≤ m.length + zeroCount m.length then 0x00
  else be64Byte (BitVec.ofNat 64 (8 * m.length)) (n - (m.length + 1 + zeroCount m.length))

/-- `Pad(M)`, the bytes `PadByte(0..L-1)` (R147). -/
def padMessage (m : List Byte) : List Byte := (List.range (paddedLength m.length)).map (padByte m)

/-- Block `b` of a padded message: its bytes `64·b .. 64·b + 63` (R53, R147). -/
def blockOf (p : List Byte) (b : Nat) : List Byte := (p.drop (64 * b)).take 64

/-- Word `j` of a block (R53, R112). -/
def blockWord (blk : List Byte) (j : Nat) : Word :=
  be32 (blk.getD (4 * j) 0) (blk.getD (4 * j + 1) 0) (blk.getD (4 * j + 2) 0) (blk.getD (4 * j + 3) 0)

/-- The next schedule word after the words `ws` (R112). -/
def scheduleNext (blk : List Byte) (ws : List Word) : Word :=
  if ws.length < 16 then blockWord blk ws.length
  else
    expandWord (ws.getD (ws.length - 2) 0) (ws.getD (ws.length - 7) 0) (ws.getD (ws.length - 15) 0)
      (ws.getD (ws.length - 16) 0)

/-- The first `n` words of `Sched(B)` (R112). -/
def schedulePrefix (blk : List Byte) : Nat → List Word
  | 0 => []
  | n + 1 => schedulePrefix blk n ++ [scheduleNext blk (schedulePrefix blk n)]

/-- `Sched(B)` (R112). -/
def schedule (blk : List Byte) : List Word := schedulePrefix blk 64

/-- The first `n` rounds of `Rounds64(S, W)` (R123). -/
def rounds (x : Vector Word 8) (w : List Word) : Nat → Vector Word 8
  | 0 => x
  | n + 1 => roundRegs (roundConstant (BitVec.ofNat 6 n)) (w.getD n 0) (rounds x w n)

/-- `Compress(S, W)` (R123). -/
def compress (x : Vector Word 8) (w : List Word) : Vector Word 8 := addRegs x (rounds x w 64)

/-- `S_b` for the padded message `p` (R147). -/
def chain (p : List Byte) : Nat → Vector Word 8
  | 0 => ivrom
  | b + 1 => compress (chain p b) (schedule (blockOf p b))

/-- `Digest(M)` (R147). -/
def digestOf (m : List Byte) : Vector Byte 32 := serialise (chain (padMessage m) (blockCount m.length))

end Sys2Proof.Machine
end

