-- ==== Sys2Proof/Safety.lean ====
section
/-! DEFINITION. The terms the statements use: legal words, the invariant of the machine, what the Host can see, and
what each instruction reads (10_state R36). -/

namespace Sys2Proof.Machine

/-- `SEQ` holds one of the 137 legal words (R86, R90). -/
def legalWord (w : UWord) : Bool :=
  match decodeUop w with
  | .ok _ => true
  | .error _ => false

/-- The words HINIT to ASM: PAD of this run has been done (R146). -/
abbrev afterPadding (w : UWord) : Prop := 2 ≤ (opcOf w).toNat ∧ (opcOf w).toNat ≤ 9

/-- The words LDW to NEXT: inside the block loop (R146). -/
abbrev insideLoop (w : UWord) : Prop := 3 ≤ (opcOf w).toNat ∧ (opcOf w).toNat ≤ 8

/-- The invariant of the machine: what R20 to R29, R35, R90 and R101 say of every state a run reaches. -/
structure Inv (s : State) : Prop where
  /-- `SEQ` is a legal word (R90). -/
  legal : legalWord s.seq = true
  /-- `PM_CAP` meets R5. -/
  cap : s.cfg.Valid
  /-- `ERR` ≠ 0 exactly when `SEQ` = FAULT (R28). -/
  err : s.err ≠ 0 ↔ s.seq = seqFault
  /-- `PM` is in canonical form. -/
  pmForm : Memory.wf s.pm
  /-- `PM` has no byte outside its space (R50). -/
  pmSpace : Memory.below s.cfg.pmCap s.pm
  /-- `MSG` is in canonical form. -/
  msgForm : Memory.wf s.msg
  /-- `MSG` has no byte outside its space (R50). -/
  msgSpace : Memory.below (2 ^ 64) s.msg
  /-- After PAD there is a block, and the padded message fits in `PM` (R26, R52). -/
  blocks : afterPadding s.seq → 1 ≤ s.nblk.toNat ∧ 64 * s.nblk.toNat ≤ s.cfg.pmCap
  /-- After PAD every byte of every block holds a value (R35). -/
  padded : afterPadding s.seq → ∀ n < 64 * s.nblk.toNat, (Memory.read s.pm n).isSome = true
  /-- Inside the block loop `BLK` < `NBLK` (R25). -/
  blkLow : insideLoop s.seq → s.blk.toNat < s.nblk.toNat
  /-- At ASM the last block is done (R25, R142). -/
  blkEnd : s.seq = seqAsm → s.blk = s.nblk

/-- What the Host can see of a state (R150): STATUS always, `DIGEST` while `DONE`. -/
structure HostView where
  status : BitVec 4
  digest : Option (Vector Byte 32)
  deriving DecidableEq, Repr

/-- The Host's view of a state (R150). -/
def hostView (s : State) : HostView :=
  { status := statusWord s, digest := if done s then some s.digest else none }

/-- The Host's view of an outcome; a stop is seen as such. -/
def outcomeView (o : Host.Outcome State Fault Refusal) : Except (Fault ⊕ Refusal) HostView :=
  match o with
  | .next s => .ok (hostView s)
  | .fault f => .error (.inl f)
  | .refused r => .error (.inr r)

/-- The two states agree on everything the table R36 lets this micro-operation read. A byte of `PM` that LDW reads is
the same in both where the address exists in both or in neither and holds the same value or none: whether an address
exists decides only between LDW's stops (log entries 2 and 4), and nothing else of `PM_CAP` enters. START reads `SEQ`
too (R140). -/
def readsAgree (i : Instr) (s u : State) : Prop :=
  match i with
  | .wait => True
  | .pad => s.len = u.len ∧ s.cfg = u.cfg ∧ ∀ n < s.len.toNat, s.msg.read n = u.msg.read n
  | .hinit => True
  | .ldw t =>
    let a := 64 * s.blk.toNat + 4 * t.toNat
    s.blk = u.blk ∧
      ∀ j < 4, (a + j < s.cfg.pmCap ↔ a + j < u.cfg.pmCap) ∧ s.pm.read (a + j) = u.pm.read (a + j)
  | .expw t =>
    s.w[t.toNat - 2]! = u.w[t.toNat - 2]! ∧ s.w[t.toNat - 7]! = u.w[t.toNat - 7]! ∧
      s.w[t.toNat - 15]! = u.w[t.toNat - 15]! ∧ s.w[t.toNat - 16]! = u.w[t.toNat - 16]!
  | .rinit => s.h = u.h
  | .round t => s.r = u.r ∧ s.w[t.toNat]! = u.w[t.toNat]!
  | .ffwd => s.h = u.h ∧ s.r = u.r
  | .next => s.blk = u.blk ∧ s.nblk = u.nblk
  | .asm => s.h = u.h
  | .fin => True
  | .fault => True
  | .start _ => s.seq = u.seq

/-- What this micro-operation wrote is the same in `s` and `u`, the states after it (the write column of R36 and `SEQ`);
`b` is a state before it. START writes `LEN` where it is accepted, and nothing where it is ignored (R140). -/
def writesAgree (i : Instr) (b s u : State) : Prop :=
  match i with
  | .wait => True
  | .pad =>
    s.seq = u.seq ∧ (s.seq = seqFault → s.err = u.err) ∧
      (s.seq = seqHinit → s.nblk = u.nblk ∧ ∀ n < 64 * s.nblk.toNat, s.pm.read n = u.pm.read n)
  | .hinit => s.seq = u.seq ∧ s.h = u.h ∧ s.blk = u.blk
  | .ldw t => s.seq = u.seq ∧ s.w[t.toNat]! = u.w[t.toNat]!
  | .expw t => s.seq = u.seq ∧ s.w[t.toNat]! = u.w[t.toNat]!
  | .rinit => s.seq = u.seq ∧ s.r = u.r
  | .round _ => s.seq = u.seq ∧ s.r = u.r
  | .ffwd => s.seq = u.seq ∧ s.h = u.h
  | .next => s.seq = u.seq ∧ s.blk = u.blk
  | .asm => s.seq = u.seq ∧ s.digest = u.digest
  | .fin => True
  | .fault => True
  | .start _ => s.seq = u.seq ∧ (b.seq = seqWait ∨ b.seq = seqFin → s.len = u.len)

/-- Two outcomes of this micro-operation, the first from the state `b`, are of one kind; two next states agree on what was
written, two stops are the same stop. -/
def outcomesAgree (i : Instr) (b : State) (o p : Host.Outcome State Fault Refusal) : Prop :=
  match o, p with
  | .next s, .next u => writesAgree i b s u
  | .fault f, .fault g => f = g
  | .refused f, .refused g => f = g
  | _, _ => False

end Sys2Proof.Machine
end

