-- ==== Sys2Proof/Certificates/Slice0/Obligations.lean ====
section
/-! DEFINITION. The statements for the provers, from the numbered rules of the spec. Words are written as the opcode
table writes them, in hex; functions are written out from the rules where a statement gives a value. -/

open Sys2Proof Sys2Proof.Machine

/-! ## Step, decode, reset -/

/-- R16, R24, R88: a step performs the next move; the Engine's move runs the instruction that `SEQ` decodes to, a
presented port word runs the command it decodes to, and `start` = 0 changes nothing. Around `exec` the step only takes
the move off the model's own list (log entry 6). -/
def Obligations.StepRunsDecodedInstruction : Prop :=
  ∀ (s : State) (i : Instr),
    takeMove s = { s with inputs := s.inputs.tail } ∧
    (s.inputs = [] → decode (.uop s.seq) = .ok i → step s = exec i s) ∧
    (∀ rest, s.inputs = .engine :: rest → decode (.uop s.seq) = .ok i → step s = exec i (takeMove s)) ∧
    (∀ w rest, s.inputs = .port w :: rest → decode (.command w) = .ok i → step s = exec i (takeMove s)) ∧
    (∀ v rest, s.inputs = .port (commandWord false v) :: rest → step s = .next (takeMove s))

/-- R86, R90: words written out bit by bit from the opcode map decode to their instruction, and words the spec names
as reserved decode to none. -/
def Obligations.OpcodeMapWordsDecode : Prop :=
  decode (.uop 0b0000000000#10) = .ok .wait ∧
  decode (.uop 0b0001000000#10) = .ok .pad ∧
  decode (.uop 0b0010000000#10) = .ok .hinit ∧
  decode (.uop 0b0011001111#10) = .ok (.ldw 15) ∧
  decode (.uop 0b0100010000#10) = .ok (.expw 16) ∧
  decode (.uop 0b0101000000#10) = .ok .rinit ∧
  decode (.uop 0b0110111111#10) = .ok (.round 63) ∧
  decode (.uop 0b0111000000#10) = .ok .ffwd ∧
  decode (.uop 0b1000000000#10) = .ok .next ∧
  decode (.uop 0b1001000000#10) = .ok .asm ∧
  decode (.uop 0b1010000000#10) = .ok .fin ∧
  decode (.uop 0b1011000000#10) = .ok .fault ∧
  decode (.command 0x10000000000000003#65) = .ok (.start 3) ∧
  decode (.uop 0x300#10) = .error .reservedOpcode ∧
  decode (.uop 0x0D0#10) = .error .reservedIndex ∧
  decode (.uop 0x100#10) = .error .reservedIndex ∧
  decode (.uop 0x001#10) = .error .reservedIndex

/-- R86: the opcode map, both ways. A 10-bit word decodes to an instruction exactly when the map lists it as a word of
that instruction; 137 words are legal. -/
def Obligations.DecodeIsTheOpcodeMap : Prop :=
  (∀ (w : UWord) (i : Instr), decode (.uop w) = .ok i ↔
    match i with
    | .wait => w.toNat = 0x000
    | .pad => w.toNat = 0x040
    | .hinit => w.toNat = 0x080
    | .ldw t => w.toNat = 0x0C0 + t.toNat ∧ t.toNat ≤ 15
    | .expw t => w.toNat = 0x100 + t.toNat ∧ 16 ≤ t.toNat
    | .rinit => w.toNat = 0x140
    | .round t => w.toNat = 0x180 + t.toNat
    | .ffwd => w.toNat = 0x1C0
    | .next => w.toNat = 0x200
    | .asm => w.toNat = 0x240
    | .fin => w.toNat = 0x280
    | .fault => w.toNat = 0x2C0
    | .start _ => False) ∧
  (List.range 1024).countP (fun n => legalWord (BitVec.ofNat 10 n)) = 137

/-- R85 to R88: for every well-formed instruction, with every operand the encoding admits, decoding its word gives it
back. -/
def Obligations.DecodeOfEncode : Prop :=
  ∀ i : Instr, i.wellFormed = true → decode (encode i) = .ok i

/-- R85 to R91: each word has one meaning: what a word decodes to is well formed and encodes to that word. -/
def Obligations.EncodeOfDecode : Prop :=
  ∀ (c : CodeWord) (i : Instr), decode c = .ok i → i.wellFormed = true ∧ encode i = c

/-- R34, R181: what the spec gives the state after reset: the Engine stands in WAIT, no fault, STATUS 0000, `PM` without
a value. -/
def Obligations.ResetStandsInWait : Prop :=
  State.reset.seq = 0x000#10 ∧ State.reset.err = 0 ∧ statusWord State.reset = 0b0000#4 ∧
  busy State.reset = false ∧ done State.reset = false ∧ faulted State.reset = false ∧
  (∀ a, State.reset.pm.read a = none)

/-- R180: reset in any state stops whatever was going on, clears `SEQ`, `ERR` and STATUS, takes the value of every `PM`
byte, and leaves `MSG` alone. (What the other registers hold afterwards is the model's choice, log entry 10.) -/
def Obligations.ResetMoveFromAnyState : Prop :=
  ∀ (s : State) (rest : List Move), s.inputs = .rst :: rest →
    ∃ t, step s = .next t ∧ t.seq = 0x000#10 ∧ t.err = 0 ∧ statusWord t = 0b0000#4 ∧
      (∀ a, t.pm.read a = none) ∧ t.msg = s.msg ∧ t.cfg = s.cfg ∧ t.inputs = rest

/-! ## What each instruction does: it completes, with this effect and no other -/

/-- R140: START. -/
def Obligations.StartAcceptedOrIgnored : Prop :=
  ∀ (s : State) (len : Quad),
    decode (.command (commandWord true len)) = .ok (.start len) ∧
    (s.seq = 0x000#10 ∨ s.seq = 0x280#10 →
      exec (.start len) s = .next { s with len := len, seq := 0x040#10 }) ∧
    (s.seq ≠ 0x000#10 → s.seq ≠ 0x280#10 → exec (.start len) s = .next s)

/-- R100: PAD. `k` and `L` are written out. The frame is the last clause: nothing but `PM[0..L-1]`, `NBLK` and `SEQ`. -/
def Obligations.PadBuildsPaddedMessage : Prop :=
  ∀ s : State,
    let len := s.len.toNat
    let k := ((55 - (len : Int)) % 64).toNat
    let l := len + 1 + k + 8
    decode (.uop 0x040#10) = .ok .pad ∧
    (2 ^ 61 ≤ len → exec .pad s = .next { s with err := 1, seq := 0x2C0#10 }) ∧
    (len < 2 ^ 61 → s.cfg.pmCap < l → exec .pad s = .next { s with err := 2, seq := 0x2C0#10 }) ∧
    (len < 2 ^ 61 → l ≤ s.cfg.pmCap → (∀ n < len, (s.msg.read n).isSome = true) →
      ∃ t, exec .pad s = .next t ∧
        (∀ n < len, t.pm.read n = s.msg.read n) ∧
        t.pm.read len = some 0x80 ∧
        (∀ n, len < n → n ≤ len + k → t.pm.read n = some 0x00) ∧
        (∀ i < 8, t.pm.read (len + 1 + k + i) = some (BitVec.ofNat 8 (8 * len / 2 ^ (56 - 8 * i)))) ∧
        (∀ n, l ≤ n → t.pm.read n = s.pm.read n) ∧
        t = { s with pm := t.pm, nblk := BitVec.ofNat 64 (l / 64), seq := 0x080#10 })

/-- The model's choice, log entry 3: a message byte below `LEN` that the Host never put is the fault `msgAbsent`, which
names the lowest such address. R51 says only that the Engine is stuck there. -/
def Obligations.PadIsStuckWithoutMessageByte : Prop :=
  ∀ (s : State) (a : Nat), s.len.toNat < 2 ^ 61 → paddedLength s.len.toNat ≤ s.cfg.pmCap → a < s.len.toNat →
    s.msg.read a = none → (∀ n < a, (s.msg.read n).isSome = true) → exec .pad s = .fault (.msgAbsent a)

/-- R161: `LengthOverflow` exactly when `LEN` ≥ 2^61, that is when `8·LEN` ≥ 2^64, whatever else is wrong. -/
def Obligations.LengthOverflowExactly : Prop :=
  ∀ s : State,
    (exec .pad s = .next { s with err := 1, seq := 0x2C0#10 } ↔ 2 ^ 61 ≤ s.len.toNat) ∧
    (2 ^ 61 ≤ s.len.toNat ↔ 2 ^ 64 ≤ 8 * s.len.toNat)

/-- R162: `CapacityFault` exactly when `LEN` < 2^61 and `L` > `PM_CAP`; equivalently a message is accepted when `LEN` ≤
`PM_CAP` - 9. The premise is R5's constraint on `PM_CAP`. -/
def Obligations.CapacityFaultExactly : Prop :=
  ∀ s : State, s.cfg.Valid →
    (exec .pad s = .next { s with err := 2, seq := 0x2C0#10 } ↔
      s.len.toNat < 2 ^ 61 ∧ s.cfg.pmCap < paddedLength s.len.toNat) ∧
    (paddedLength s.len.toNat ≤ s.cfg.pmCap ↔ s.len.toNat ≤ s.cfg.pmCap - 9)

/-- R141: HINIT. -/
def Obligations.HinitLoadsInitialValue : Prop :=
  ∀ s : State,
    decode (.uop 0x080#10) = .ok .hinit ∧
    exec .hinit s = .next { s with
      h := #v[0x6a09e667, 0xbb67ae85, 0x3c6ef372, 0xa54ff53a, 0x510e527f, 0x9b05688c, 0x1f83d9ab, 0x5be0cd19]
      blk := 0
      seq := 0x0C0#10 }

/-- R110: LDW `t`, t = 0..15, where the four bytes at `64·BLK + 4·t` exist and hold values. -/
def Obligations.LdwLoadsBigEndianWord : Prop :=
  ∀ (s : State) (t : Index) (b0 b1 b2 b3 : Byte),
    let a := 64 * s.blk.toNat + 4 * t.toNat
    t.toNat < 16 →
    decode (.uop (BitVec.ofNat 10 (0x0C0 + t.toNat))) = .ok (.ldw t) ∧
    (a + 3 < s.cfg.pmCap → s.pm.read a = some b0 → s.pm.read (a + 1) = some b1 → s.pm.read (a + 2) = some b2 →
      s.pm.read (a + 3) = some b3 →
      exec (.ldw t) s = .next { s with
        w := s.w.set! t.toNat
          (BitVec.ofNat 32 (b0.toNat * 2 ^ 24 + b1.toNat * 2 ^ 16 + b2.toNat * 2 ^ 8 + b3.toNat))
        seq := if t.toNat < 15 then BitVec.ofNat 10 (0x0C0 + t.toNat + 1) else 0x110#10 })

/-- R35, R50 (log entries 2, 4): where one of the four bytes does not answer, LDW stops at the first such byte, by
name. -/
def Obligations.LdwStopsAtFirstAbsentByte : Prop :=
  ∀ (s : State) (t : Index) (j : Nat),
    let a := 64 * s.blk.toNat + 4 * t.toNat
    t.toNat < 16 → j < 4 → (∀ i < j, a + i < s.cfg.pmCap ∧ (s.pm.read (a + i)).isSome = true) →
    (a + j < s.cfg.pmCap → s.pm.read (a + j) = none → exec (.ldw t) s = .fault (.pmUnwritten (a + j))) ∧
    (s.cfg.pmCap ≤ a + j → exec (.ldw t) s = .fault (.pmOutside (a + j)))

/-- R111: EXPW `t`, t = 16..63, with `σ0`, `σ1` written out by rotations and shifts. -/
def Obligations.ExpwComputesScheduleWord : Prop :=
  ∀ (s : State) (t : Index),
    let w2 := s.w[t.toNat - 2]!
    let w7 := s.w[t.toNat - 7]!
    let w15 := s.w[t.toNat - 15]!
    let w16 := s.w[t.toNat - 16]!
    16 ≤ t.toNat →
    decode (.uop (BitVec.ofNat 10 (0x100 + t.toNat))) = .ok (.expw t) ∧
    exec (.expw t) s = .next { s with
      w := s.w.set! t.toNat
        ((w2.rotateRight 17 ^^^ w2.rotateRight 19 ^^^ w2 >>> 10) + w7 +
          (w15.rotateRight 7 ^^^ w15.rotateRight 18 ^^^ w15 >>> 3) + w16)
      seq := if t.toNat < 63 then BitVec.ofNat 10 (0x100 + t.toNat + 1) else 0x140#10 }

/-- R90, R163: an index outside the range of its opcode makes the word reserved, and the step raises IllegalUop with no
other effect (for a term of `Instr`, log entry 15). -/
def Obligations.ReservedIndexRaisesIllegalUop : Prop :=
  ∀ (s : State) (t : Index),
    (16 ≤ t.toNat → exec (.ldw t) s = .next { s with err := 3, seq := 0x2C0#10 }) ∧
    (t.toNat < 16 → exec (.expw t) s = .next { s with err := 3, seq := 0x2C0#10 })

/-- R120: RINIT. -/
def Obligations.RinitCopiesHashState : Prop :=
  ∀ s : State,
    decode (.uop 0x140#10) = .ok .rinit ∧
    exec .rinit s = .next { s with
      r := #v[s.h[0], s.h[1], s.h[2], s.h[3], s.h[4], s.h[5], s.h[6], s.h[7]]
      seq := 0x180#10 }

/-- R121: ROUND `t`, t = 0..63, every function written out; all right-hand sides use the registers before the round. -/
def Obligations.RoundUpdatesWorkingRegisters : Prop :=
  ∀ (s : State) (t : Index) (a b c d e f g h : Word), s.r = #v[a, b, c, d, e, f, g, h] →
    let t1 := h + (e.rotateRight 6 ^^^ e.rotateRight 11 ^^^ e.rotateRight 25) + ((e &&& f) ^^^ (~~~e &&& g)) +
      krom[t.toNat]! + s.w[t.toNat]!
    let t2 := (a.rotateRight 2 ^^^ a.rotateRight 13 ^^^ a.rotateRight 22) +
      ((a &&& b) ^^^ (a &&& c) ^^^ (b &&& c))
    decode (.uop (BitVec.ofNat 10 (0x180 + t.toNat))) = .ok (.round t) ∧
    exec (.round t) s = .next { s with
      r := #v[t1 + t2, a, b, c, d + t1, e, f, g]
      seq := if t.toNat < 63 then BitVec.ofNat 10 (0x180 + t.toNat + 1) else 0x1C0#10 }

/-- R122: FFWD: eight sums, each modulo 2^32 on its own. -/
def Obligations.FfwdAddsWordByWord : Prop :=
  ∀ s : State,
    decode (.uop 0x1C0#10) = .ok .ffwd ∧
    ∃ x : Vector Word 8, exec .ffwd s = .next { s with h := x, seq := 0x200#10 } ∧
      ∀ j < 8, x[j]!.toNat = (s.h[j]!.toNat + s.r[j]!.toNat) % 2 ^ 32

/-- R142: NEXT, in both of the cases the rule states. -/
def Obligations.NextAdvancesBlock : Prop :=
  ∀ s : State,
    decode (.uop 0x200#10) = .ok .next ∧
    (s.blk.toNat + 1 < s.nblk.toNat →
      exec .next s = .next { s with blk := BitVec.ofNat 64 (s.blk.toNat + 1), seq := 0x0C0#10 }) ∧
    (s.blk.toNat + 1 = s.nblk.toNat →
      exec .next s = .next { s with blk := BitVec.ofNat 64 (s.blk.toNat + 1), seq := 0x240#10 })

/-- Log entries 8 and 9 (the model's reading of R142 where no run gets): for `BLK + 1 > NBLK` NEXT still completes;
`BLK` advances where the sum fits in 64 bits, and the successor is one of NEXT's two. It holds for every value of
the two free constants. -/
def Obligations.NextPastTheEndStillCompletes : Prop :=
  ∀ s : State, s.nblk.toNat < s.blk.toNat + 1 →
    ∃ (b : Quad) (u : UWord), exec .next s = .next { s with blk := b, seq := u } ∧
      (u = 0x0C0#10 ∨ u = 0x240#10) ∧ (s.blk.toNat + 1 < 2 ^ 64 → b.toNat = s.blk.toNat + 1)

/-- R135, R84: ASM: `DIGEST[4j+i]` is byte `i` of `H[j]`, most significant first. -/
def Obligations.AsmWritesBigEndianDigest : Prop :=
  ∀ s : State,
    decode (.uop 0x240#10) = .ok .asm ∧
    ∃ d : Vector Byte 32, exec .asm s = .next { s with digest := d, seq := 0x280#10 } ∧
      ∀ j < 8, ∀ i < 4, d[4 * j + i]!.toNat = s.h[j]!.toNat / 2 ^ (24 - 8 * i) % 2 ^ 8

/-- R143, R144, R145: in WAIT, FIN and FAULT nothing changes. (That a scheduled move of the Engine is spent there, and
is a next state, is the model's choice, log entry 7.) -/
def Obligations.StandingWordsChangeNothing : Prop :=
  ∀ s : State,
    decode (.uop 0x000#10) = .ok .wait ∧ exec .wait s = .next s ∧
    decode (.uop 0x280#10) = .ok .fin ∧ exec .fin s = .next s ∧
    decode (.uop 0x2C0#10) = .ok .fault ∧ exec .fault s = .next s

/-- R90, R163: which words are reserved; a step on one is a fault entry with code 3; no step leads to one. -/
def Obligations.ReservedWordsRaiseIllegalUop : Prop :=
  ∀ s : State,
    let opc := s.seq.toNat / 64
    let t := s.seq.toNat % 64
    (legalWord s.seq = true ↔ ∃ i, decode (.uop s.seq) = .ok i) ∧
    (legalWord s.seq = false ↔
      12 ≤ opc ∨ (opc = 3 ∧ 16 ≤ t) ∨ (opc = 4 ∧ t < 16) ∨ (opc ≠ 3 ∧ opc ≠ 4 ∧ opc ≠ 6 ∧ t ≠ 0)) ∧
    (legalWord s.seq = false → engineStep s = .next { s with err := 3, seq := 0x2C0#10 }) ∧
    legalWord State.reset.seq = true ∧
    (∀ u, step s = .next u →
      (legalWord s.seq = true → legalWord u.seq = true) ∧ (nextMove s = .engine → legalWord u.seq = true))

/-! ## Frames and whole-machine rules -/

/-- R36, the write column: an instruction leaves everything outside its row unchanged, whichever way it goes on. PAD
stores to `PM[0..L-1]`; LDW and EXPW store to `W[t]`. -/
def Obligations.WritesStayInTheirRow : Prop :=
  ∀ (i : Instr) (s t : State), exec i s = .next t →
    match i with
    | .wait => t = s
    | .pad =>
      (t = { s with pm := t.pm, nblk := t.nblk, seq := t.seq } ∧
        ∀ a, paddedLength s.len.toNat ≤ a → t.pm.read a = s.pm.read a) ∨
      t = { s with err := t.err, seq := t.seq }
    | .hinit => t = { s with h := t.h, blk := t.blk, seq := t.seq }
    | .ldw n =>
      (t = { s with w := t.w, seq := t.seq } ∧ ∀ j < 64, j ≠ n.toNat → t.w[j]! = s.w[j]!) ∨
      (16 ≤ n.toNat ∧ t = { s with err := t.err, seq := t.seq })
    | .expw n =>
      (t = { s with w := t.w, seq := t.seq } ∧ ∀ j < 64, j ≠ n.toNat → t.w[j]! = s.w[j]!) ∨
      (n.toNat < 16 ∧ t = { s with err := t.err, seq := t.seq })
    | .rinit => t = { s with r := t.r, seq := t.seq }
    | .round _ => t = { s with r := t.r, seq := t.seq }
    | .ffwd => t = { s with h := t.h, seq := t.seq }
    | .next => t = { s with blk := t.blk, seq := t.seq }
    | .asm => t = { s with digest := t.digest, seq := t.seq }
    | .fin => t = s
    | .fault => t = s
    | .start _ => t = { s with len := t.len, seq := t.seq }

/-- R36, the read column: two states that agree on what the row lets the instruction read go on the same way and have
the same values written, START's `LEN` among them. For LDW, agreeing on a byte of `PM` includes whether its address
exists, which decides only which named stop it is (log entries 2 and 4, the model's); `PM_CAP` may differ otherwise. -/
def Obligations.ReadsStayInTheirRow : Prop :=
  ∀ (i : Instr) (s u : State), i.wellFormed = true → readsAgree i s u → outcomesAgree i s (exec i s) (exec i u)

/-- R20, the owner column, over every step of the machine: each piece of state is written only by what the table names,
and by reset (R180); `PM_CAP` by nothing (R32). -/
def Obligations.OnlyOwnersWrite : Prop :=
  ∀ s t : State, step s = .next t →
    (t.h ≠ s.h → nextMove s = .rst ∨ (nextMove s = .engine ∧ (s.seq = 0x080#10 ∨ s.seq = 0x1C0#10))) ∧
    (t.r ≠ s.r → nextMove s = .rst ∨
      (nextMove s = .engine ∧ (s.seq = 0x140#10 ∨ (0x180 ≤ s.seq.toNat ∧ s.seq.toNat ≤ 0x1BF)))) ∧
    (t.w ≠ s.w → nextMove s = .rst ∨
      (nextMove s = .engine ∧ ((0x0C0 ≤ s.seq.toNat ∧ s.seq.toNat ≤ 0x0CF) ∨
        (0x110 ≤ s.seq.toNat ∧ s.seq.toNat ≤ 0x13F)))) ∧
    (t.seq ≠ s.seq → nextMove s = .rst ∨ nextMove s = .engine ∨
      ((∃ v, nextMove s = .port (commandWord true v)) ∧ (s.seq = 0x000#10 ∨ s.seq = 0x280#10) ∧ t.seq = 0x040#10)) ∧
    (t.blk ≠ s.blk → nextMove s = .rst ∨ (nextMove s = .engine ∧ (s.seq = 0x080#10 ∨ s.seq = 0x200#10))) ∧
    (t.nblk ≠ s.nblk → nextMove s = .rst ∨ (nextMove s = .engine ∧ s.seq = 0x040#10)) ∧
    (t.len ≠ s.len → nextMove s = .rst ∨
      ((∃ v, nextMove s = .port (commandWord true v)) ∧ (s.seq = 0x000#10 ∨ s.seq = 0x280#10))) ∧
    (t.err ≠ s.err → nextMove s = .rst ∨ (nextMove s = .engine ∧ t.seq = 0x2C0#10)) ∧
    (t.digest ≠ s.digest → nextMove s = .rst ∨ (nextMove s = .engine ∧ s.seq = 0x240#10)) ∧
    (t.pm ≠ s.pm → nextMove s = .rst ∨ (nextMove s = .engine ∧ s.seq = 0x040#10)) ∧
    (t.msg ≠ s.msg → (∃ a b, nextMove s = .putMsg a b) ∧ busy s = false) ∧
    t.cfg = s.cfg

/-- R146: the whole control flow. -/
def Obligations.SequencerTable : Prop :=
  ∀ s t : State,
    (engineStep s = .next t →
      (s.seq = 0x000#10 → t = s) ∧
      (s.seq = 0x040#10 →
        (t.seq = 0x2C0#10 ∧ (2 ^ 61 ≤ s.len.toNat ∨ s.cfg.pmCap < paddedLength s.len.toNat)) ∨
        (t.seq = 0x080#10 ∧ s.len.toNat < 2 ^ 61 ∧ paddedLength s.len.toNat ≤ s.cfg.pmCap)) ∧
      (s.seq = 0x080#10 → t.seq = 0x0C0#10) ∧
      (∀ n < 15, s.seq = BitVec.ofNat 10 (0x0C0 + n) → t.seq = BitVec.ofNat 10 (0x0C0 + (n + 1))) ∧
      (s.seq = 0x0CF#10 → t.seq = 0x110#10) ∧
      (∀ n, 16 ≤ n → n < 63 → s.seq = BitVec.ofNat 10 (0x100 + n) → t.seq = BitVec.ofNat 10 (0x100 + (n + 1))) ∧
      (s.seq = 0x13F#10 → t.seq = 0x140#10) ∧
      (s.seq = 0x140#10 → t.seq = 0x180#10) ∧
      (∀ n < 63, s.seq = BitVec.ofNat 10 (0x180 + n) → t.seq = BitVec.ofNat 10 (0x180 + (n + 1))) ∧
      (s.seq = 0x1BF#10 → t.seq = 0x1C0#10) ∧
      (s.seq = 0x1C0#10 → t.seq = 0x200#10) ∧
      (s.seq = 0x200#10 → s.blk.toNat + 1 < s.nblk.toNat → t.seq = 0x0C0#10) ∧
      (s.seq = 0x200#10 → s.blk.toNat + 1 = s.nblk.toNat → t.seq = 0x240#10) ∧
      (s.seq = 0x240#10 → t.seq = 0x280#10) ∧
      (s.seq = 0x280#10 → t = s) ∧
      (s.seq = 0x2C0#10 → t = s) ∧
      ((∀ i, decode (.uop s.seq) ≠ .ok i) → t.seq = 0x2C0#10)) ∧
    (∀ len, exec (.start len) s = .next t →
      (s.seq = 0x000#10 ∨ s.seq = 0x280#10 → t.seq = 0x040#10) ∧
      (s.seq ≠ 0x000#10 → s.seq ≠ 0x280#10 → t = s)) ∧
    (afterReset s).seq = 0x000#10

/-- R28: `ERR` ≠ 0 exactly when `SEQ` = FAULT, kept by every step; only fault entry and reset write `ERR`. -/
def Obligations.ErrNonzeroExactlyInFault : Prop :=
  (State.reset.err ≠ 0 ↔ State.reset.seq = 0x2C0#10) ∧
  ∀ s t : State, step s = .next t →
    ((s.err ≠ 0 ↔ s.seq = 0x2C0#10) → (t.err ≠ 0 ↔ t.seq = 0x2C0#10)) ∧
    (t.err ≠ s.err →
      (nextMove s = .rst ∧ t.err = 0) ∨ (nextMove s = .engine ∧ t.err ≠ 0 ∧ t.seq = 0x2C0#10))

/-- R160, R164: fault entry is the whole effect of the step: a step of the Engine into FAULT changes `ERR` and `SEQ`
only, and is one of the three faults of R160. -/
def Obligations.FaultEntryChangesErrAndSeqOnly : Prop :=
  ∀ s t : State, s.seq ≠ 0x2C0#10 → engineStep s = .next t → t.seq = 0x2C0#10 →
    t = { s with err := t.err, seq := 0x2C0#10 } ∧
    busy s = true ∧ busy t = false ∧ faulted t = true ∧ done s = false ∧ done t = false ∧
    ((s.seq = 0x040#10 ∧ 2 ^ 61 ≤ s.len.toNat ∧ t.err = 1) ∨
      (s.seq = 0x040#10 ∧ s.len.toNat < 2 ^ 61 ∧ s.cfg.pmCap < paddedLength s.len.toNat ∧ t.err = 2) ∨
      ((∀ i, decode (.uop s.seq) ≠ .ok i) ∧ t.err = 3))

/-- R165: FAULT is left by reset only, and `ERR` keeps its code until then. -/
def Obligations.FaultIsLeftByResetOnly : Prop :=
  ∀ s t : State, s.seq = 0x2C0#10 → step s = .next t →
    (nextMove s ≠ .rst → t.seq = 0x2C0#10 ∧ t.err = s.err) ∧
    (nextMove s = .rst → t.seq = 0x000#10 ∧ t.err = 0)

/-- R29: the four conditions on `SEQ`, of which exactly one holds, and BUSY against the Engine's step. That the Engine
has no step is, in this model, a move that changes nothing (log entry 7, the model's choice). With BUSY a move never
leaves `SEQ` as it is, and in a state that meets the invariant it completes, except PAD's, which is stuck at a message
byte the Host owes (R51; as the fault `msgAbsent`, log entry 3, the model's choice). -/
def Obligations.BusyExactlyWhenEngineHasStep : Prop :=
  ∀ s : State,
    (idle s = true ↔ s.seq = 0x000#10) ∧ (done s = true ↔ s.seq = 0x280#10) ∧ (faulted s = true ↔ s.seq = 0x2C0#10) ∧
    (busy s = true ↔ s.seq ≠ 0x000#10 ∧ s.seq ≠ 0x280#10 ∧ s.seq ≠ 0x2C0#10) ∧
    ([idle s, busy s, done s, faulted s].count true = 1) ∧
    (busy s = false → engineStep s = .next s) ∧
    (busy s = true → ∀ t, engineStep s = .next t → t.seq ≠ s.seq) ∧
    (Inv s → busy s = true →
      (∃ t, engineStep s = .next t ∧ t.seq ≠ s.seq) ∨
      (∃ a, s.seq = 0x040#10 ∧ a < s.len.toNat ∧ s.msg.read a = none ∧ engineStep s = .fault (.msgAbsent a)))

/-- R89: the fields of STATUS, and the six values that occur while `ERR` ≠ 0 exactly in FAULT (R28); the second output,
`DIGEST`, answers only while `DONE`. -/
def Obligations.StatusWordValues : Prop :=
  ∀ s : State,
    (statusWord s).extractLsb' 2 2 = s.err ∧ (statusWord s).getLsbD 1 = done s ∧ (statusWord s).getLsbD 0 = busy s ∧
    ((s.err ≠ 0 ↔ s.seq = 0x2C0#10) →
      (s.seq = 0x000#10 → statusWord s = 0b0000#4) ∧
      (s.seq = 0x280#10 → statusWord s = 0b0010#4) ∧
      (s.seq = 0x2C0#10 → (s.err = 1 ∧ statusWord s = 0b0100#4) ∨ (s.err = 2 ∧ statusWord s = 0b1000#4) ∨
        (s.err = 3 ∧ statusWord s = 0b1100#4)) ∧
      (busy s = true → statusWord s = 0b0001#4) ∧
      (faulted s = true ↔ s.err ≠ 0)) ∧
    (∀ n, (∃ b, readDigest n s = .ok b) ↔ done s = true)

/-- R150: STATUS is read in every state and `DIGEST` only while `DONE`; a read changes nothing but the model's own list of
moves; any other read of `DIGEST` is refused. -/
def Obligations.HostReadsChangeNothing : Prop :=
  ∀ (s : State) (rest : List Move) (n : BitVec 5),
    (s.inputs = .readStatus :: rest → step s = .next { s with inputs := rest }) ∧
    (s.seq = 0x280#10 → readDigest n s = .ok s.digest[n.toNat]! ∧
      (s.inputs = .readDigest n :: rest → step s = .next { s with inputs := rest })) ∧
    (s.seq ≠ 0x280#10 → readDigest n s = .error .digestNotReadable ∧
      (s.inputs = .readDigest n :: rest → step s = .refused .digestNotReadable))

/-- R50, R168: the Host may write its own `MSG` while the Engine is not busy; while `BUSY` the model refuses the move, as
R168 asks (under a name of the model's, log entry 16). That a write is one byte a move is the model's choice, log entry
18: R50 does not say in what portions the Host writes. -/
def Obligations.HostWritesMessageOnlyWhenNotBusy : Prop :=
  ∀ (s : State) (rest : List Move) (a : Quad) (b : Byte), s.inputs = .putMsg a b :: rest →
    (busy s = true → step s = .refused .msgWriteWhileBusy) ∧
    (busy s = false → ∃ t, step s = .next t ∧ t.msg.read a.toNat = some b ∧
      (∀ x, x ≠ a.toNat → t.msg.read x = s.msg.read x) ∧ t = { s with msg := t.msg, inputs := rest })

/-- R168: the five things the Host must not do, and what the model makes of each. None of them sets `ERR`. The names of
the two refusals are the model's (log entry 16); that PAD, which R168 calls stuck, is the fault `msgAbsent` at the lowest
absent address is the model's choice, log entry 3. -/
def Obligations.HostViolationsAreNoFaults : Prop :=
  ∀ (s : State) (rest : List Move),
    (∀ w, busy s = true ∨ faulted s = true → s.inputs = .port w :: rest → step s = .next { s with inputs := rest }) ∧
    (∀ n, done s = false → s.inputs = .readDigest n :: rest → step s = .refused .digestNotReadable) ∧
    (∀ a b, busy s = true → s.inputs = .putMsg a b :: rest → step s = .refused .msgWriteWhileBusy) ∧
    (∀ a, s.inputs = [] → s.seq = 0x040#10 → s.len.toNat < 2 ^ 61 → paddedLength s.len.toNat ≤ s.cfg.pmCap →
      a < s.len.toNat → s.msg.read a = none → (∀ n < a, (s.msg.read n).isSome = true) →
      step s = .fault (.msgAbsent a)) ∧
    (∀ v, s.inputs = .port (commandWord false v) :: rest → step s = .next { s with inputs := rest })

/-! ## The invariant -/

/-- The invariant holds at reset. It rests on the model's `PM_CAP` (log entry 5) and empty `MSG` (log entry 12). -/
def Obligations.InvariantAtReset : Prop := Inv State.reset

/-- R25, R26, R28, R35, R50, R90: every step of either agent keeps the invariant. -/
def Obligations.EveryStepKeepsInvariant : Prop :=
  ∀ s t : State, Inv s → step s = .next t → Inv t

/-- R35, R110, R160: in a state that meets the invariant every read finds a value: the Engine's move completes, but for a
message byte the Host owes to PAD (R51; the fault `msgAbsent`, log entry 3, the model's choice). In WAIT, FIN and FAULT
the spec gives the Engine no step (R143 to R145); that its move there counts as completing, and changes nothing, is the
model's choice, log entry 7. -/
def Obligations.EngineStopsOnlyForMissingMessage : Prop :=
  ∀ s : State, Inv s → nextMove s = .engine →
    (∃ t, step s = .next t) ∨
    (∃ a, s.seq = 0x040#10 ∧ a < s.len.toNat ∧ s.msg.read a = none ∧ step s = .fault (.msgAbsent a))

/-! ## Arithmetic and data formats -/

/-- R101: the arithmetic of PAD. -/
def Obligations.PadArithmetic : Prop :=
  ∀ len : Nat, len < 2 ^ 61 →
    zeroCount len ≤ 63 ∧ paddedLength len = len + 1 + zeroCount len + 8 ∧
    8 * len ≤ 2 ^ 64 - 8 ∧ paddedLength len ≤ 2 ^ 61 + 64 ∧ paddedLength (2 ^ 61 - 1) = 2 ^ 61 + 64 ∧
    zeroCount (2 ^ 61 - 1) = 56 ∧
    blockCount len = paddedLength len / 64 ∧ 1 ≤ blockCount len ∧ blockCount len ≤ 2 ^ 55 + 1 ∧
    paddedLength len % 64 = 0 ∧ 64 ≤ paddedLength len ∧ len + 9 ≤ paddedLength len ∧
    (∀ x, x % 64 = 0 → len + 9 ≤ x → paddedLength len ≤ x) ∧
    blockCount len = (len + 8) / 64 + 1 ∧ paddedLength len = 64 * blockCount len ∧
    zeroCount len = paddedLength len - len - 9 ∧
    (∀ n : Nat, 8 * n ≤ 2 ^ 64 - 1 ↔ n ≤ 2 ^ 61 - 1)

/-- R83: the layout PAD writes is `PadByte(0..L-1)`. -/
def Obligations.PaddedLayoutIsPadByte : Prop :=
  ∀ m : List Byte,
    paddedBytes m = padMessage m ∧ (padMessage m).length = m.length + 1 + ((55 - (m.length : Int)) % 64).toNat + 8 ∧
    (padMessage m).length % 64 = 0 ∧ 1 ≤ blockCount m.length ∧ (padMessage m).length = 64 * blockCount m.length ∧
    (∀ z, (m.length + 1 + z + 8) % 64 = 0 → zeroCount m.length ≤ z) ∧
    ∀ n, n < m.length + 1 + ((55 - (m.length : Int)) % 64).toNat + 8 →
      (n < m.length → (padMessage m)[n]? = m[n]?) ∧
      (n = m.length → (padMessage m)[n]? = some 0x80) ∧
      (m.length < n → n ≤ m.length + zeroCount m.length → (padMessage m)[n]? = some 0x00) ∧
      (m.length + zeroCount m.length < n →
        (padMessage m)[n]? =
          some (be64Byte (BitVec.ofNat 64 (8 * m.length)) (n - (m.length + 1 + zeroCount m.length))))

/-- R9: the rotation and the shift, as numbers and bit by bit. -/
def Obligations.RotateAndShiftBits : Prop :=
  ∀ (x : Word) (n i : Nat), 0 < n → n < 32 → i < 32 →
    (rotr x n).toNat = (x.toNat / 2 ^ n ||| x.toNat * 2 ^ (32 - n) % 2 ^ 32) ∧
    (rotr x n).getLsbD i = x.getLsbD ((i + n) % 32) ∧
    (shr x n).getLsbD i = (if i + n ≤ 31 then x.getLsbD (i + n) else false)

/-- R11: the six functions, by rotations, shifts and bits: `Ch` selects, `Maj` is the majority. -/
def Obligations.WordFunctions : Prop :=
  ∀ x y z : Word,
    ssig0 x = x.rotateRight 7 ^^^ x.rotateRight 18 ^^^ x >>> 3 ∧
    ssig1 x = x.rotateRight 17 ^^^ x.rotateRight 19 ^^^ x >>> 10 ∧
    bsig0 x = x.rotateRight 2 ^^^ x.rotateRight 13 ^^^ x.rotateRight 22 ∧
    bsig1 x = x.rotateRight 6 ^^^ x.rotateRight 11 ^^^ x.rotateRight 25 ∧
    ch x y z = (x &&& y) ^^^ (~~~x &&& z) ∧ maj x y z = (x &&& y) ^^^ (x &&& z) ^^^ (y &&& z) ∧
    (∀ i < 32, (ch x y z).getLsbD i = (if x.getLsbD i then y.getLsbD i else z.getLsbD i)) ∧
    (∀ i < 32, (maj x y z).getLsbD i = true ↔ 2 ≤ [x.getLsbD i, y.getLsbD i, z.getLsbD i].count true)

/-- R12: `BE32` and its inverse, and the bytes of a 64-bit value. -/
def Obligations.BigEndianPacking : Prop :=
  (∀ b0 b1 b2 b3 : Byte,
    (be32 b0 b1 b2 b3).toNat = b0.toNat * 2 ^ 24 + b1.toNat * 2 ^ 16 + b2.toNat * 2 ^ 8 + b3.toNat ∧
    byteOf (be32 b0 b1 b2 b3) 0 = b0 ∧ byteOf (be32 b0 b1 b2 b3) 1 = b1 ∧
    byteOf (be32 b0 b1 b2 b3) 2 = b2 ∧ byteOf (be32 b0 b1 b2 b3) 3 = b3) ∧
  (∀ w : Word, be32 (byteOf w 0) (byteOf w 1) (byteOf w 2) (byteOf w 3) = w) ∧
  (∀ (w : Word) (i : Nat), i < 4 → (byteOf w i).toNat = w.toNat / 2 ^ (24 - 8 * i) % 2 ^ 8) ∧
  (∀ (v : Quad) (i : Nat), i < 8 → (be64Byte v i).toNat = v.toNat / 2 ^ (56 - 8 * i) % 2 ^ 8)

/-- The spec's own check of R62 and R63 (G3, log entry 13): `K[t]` is the first 32 bits of the fractional part of the cube
root of the (t+1)-th prime, `IV[j]` likewise of the square root. -/
def Obligations.RomWordsArePrimeRoots : Prop :=
  (∀ t < 64, ∃ p r : Nat, p.Prime ∧ p.primesBelow.card = t ∧ r ^ 3 ≤ p * 2 ^ 96 ∧ p * 2 ^ 96 < (r + 1) ^ 3 ∧
    krom[t]!.toNat = r % 2 ^ 32) ∧
  (∀ j < 8, ∃ p r : Nat, p.Prime ∧ p.primesBelow.card = j ∧ r ^ 2 ≤ p * 2 ^ 64 ∧ p * 2 ^ 64 < (r + 1) ^ 2 ∧
    ivrom[j]!.toNat = r % 2 ^ 32)

/-! ## What sequences of steps compute -/

/-- R112: `Sched` meets its two equations. -/
def Obligations.ScheduleEquations : Prop :=
  ∀ blk : List Byte,
    (schedule blk).length = 64 ∧
    (∀ t < 16, (schedule blk)[t]! = blockWord blk t) ∧
    (∀ t, 16 ≤ t → t < 64 →
      (schedule blk)[t]! = ssig1 (schedule blk)[t - 2]! + (schedule blk)[t - 7]! + ssig0 (schedule blk)[t - 15]! +
        (schedule blk)[t - 16]!)

/-- R112: 64 steps from LDW 0 leave the schedule of block `BLK` in `W`, and change nothing else but `SEQ`. -/
def Obligations.SchedComputesSchedule : Prop :=
  ∀ (s : State) (blk : List Byte), s.seq = 0x0C0#10 → s.inputs = [] → blk.length = 64 →
    64 * s.blk.toNat + 64 ≤ s.cfg.pmCap → (∀ n < 64, s.pm.read (64 * s.blk.toNat + n) = blk[n]?) →
    ∃ t, Host.Core.run core 64 s = .next t ∧ t.w.toList = schedule blk ∧
      t = { s with w := t.w, seq := 0x140#10 }

/-- R123: 66 steps from RINIT leave `Compress(H, W)` in `H`, and change nothing else but `R` and `SEQ`. -/
def Obligations.CompressComputesCompression : Prop :=
  ∀ s : State, s.seq = 0x140#10 → s.inputs = [] →
    ∃ t, Host.Core.run core 66 s = .next t ∧ t.h = compress s.h s.w.toList ∧ t.r = rounds s.h s.w.toList 64 ∧
      t = { s with h := t.h, r := t.r, seq := 0x200#10 }

/-- R147, R149: a run started by START from IDLE or DONE, with every message byte in `MSG` and room in `PM`, is busy for
exactly `3 + 131·N` steps of the Engine and ends in FIN with `DIGEST` = `Digest(M)`. -/
def Obligations.RunComputesDigest : Prop :=
  ∀ (s : State) (m : List Byte),
    s.seq = 0x000#10 ∨ s.seq = 0x280#10 →
    s.inputs = [.port (commandWord true (BitVec.ofNat 64 m.length))] →
    m.length < 2 ^ 61 → paddedLength m.length ≤ s.cfg.pmCap → (∀ n < m.length, s.msg.read n = m[n]?) →
    (∀ k, 1 ≤ k → k ≤ 3 + 131 * blockCount m.length → ∃ u, Host.Core.run core k s = .next u ∧ busy u = true) ∧
    ∃ t, Host.Core.run core (1 + (3 + 131 * blockCount m.length)) s = .next t ∧ t.seq = 0x280#10 ∧
      t.digest = digestOf m ∧ t.err = s.err ∧ t.msg = s.msg ∧ t.len.toNat = m.length

/-- R149, R164: a run that faults takes one step of the Engine and has changed nothing but `LEN`, `ERR` and `SEQ`. -/
def Obligations.FaultingRunTakesOneStep : Prop :=
  ∀ (s : State) (len : Quad), s.seq = 0x000#10 ∨ s.seq = 0x280#10 → s.inputs = [.port (commandWord true len)] →
    (2 ^ 61 ≤ len.toNat →
      Host.Core.run core 2 s = .next { s with len := len, err := 1, seq := 0x2C0#10, inputs := [] }) ∧
    (len.toNat < 2 ^ 61 → s.cfg.pmCap < paddedLength len.toNat →
      Host.Core.run core 2 s = .next { s with len := len, err := 2, seq := 0x2C0#10, inputs := [] })

/-- R148, R33, R185: after START, what the Host sees at every moment depends on the message bytes, the length and
`PM_CAP` alone: not on what earlier runs (or the model's choice of reset values, log entry 1) left in the registers and
in `PM`, and not on whether the run started from IDLE or DONE. -/
def Obligations.RunDependsOnMessageOnly : Prop :=
  ∀ (s u : State) (len : Quad),
    s.seq = 0x000#10 ∨ s.seq = 0x280#10 → u.seq = 0x000#10 ∨ u.seq = 0x280#10 → s.err = 0 → u.err = 0 →
    s.inputs = [.port (commandWord true len)] → u.inputs = [.port (commandWord true len)] → s.cfg = u.cfg →
    (∀ n < len.toNat, s.msg.read n = u.msg.read n) →
    ∀ k, 1 ≤ k → outcomeView (Host.Core.run core k s) = outcomeView (Host.Core.run core k u)
end

