-- ==== Sys2Proof/Laws/Decode.lean ====
section
/-! SUPPORT. The fields of a micro-operation word and of the command port (R85, R88). -/

namespace Sys2Proof

@[simp] theorem opcOf_uword (o : BitVec 4) (t : Index) : opcOf (uword o t) = o := by
  apply BitVec.eq_of_getLsbD_eq
  intro i hi
  simp only [opcOf, uword, BitVec.getLsbD_extractLsb', BitVec.getLsbD_append]
  have : ¬ (6 + i < 6) := by omega
  simp [hi]

@[simp] theorem indexOf_uword (o : BitVec 4) (t : Index) : indexOf (uword o t) = t := by
  apply BitVec.eq_of_getLsbD_eq
  intro i hi
  simp only [indexOf, uword, BitVec.getLsbD_extractLsb', BitVec.getLsbD_append, Nat.zero_add]
  simp [hi]

theorem uword_fields (w : UWord) : uword (opcOf w) (indexOf w) = w := by
  apply BitVec.eq_of_getLsbD_eq
  intro i hi
  simp only [uword, opcOf, indexOf, BitVec.getLsbD_append, BitVec.getLsbD_extractLsb']
  by_cases h : i < 6
  · simp [h]
  · have : i - 6 < 4 := by omega
    simp [h, this, show 6 + (i - 6) = i by omega]

theorem uword_inj {o p : BitVec 4} {t u : Index} : uword o t = uword p u ↔ o = p ∧ t = u := by
  constructor
  · intro h
    have h1 := congrArg opcOf h
    have h2 := congrArg indexOf h
    simpa using And.intro h1 h2
  · rintro ⟨rfl, rfl⟩; rfl

theorem uword_toNat (o : BitVec 4) (t : Index) : (uword o t).toNat = o.toNat * 64 + t.toNat := by
  simp only [uword, BitVec.toNat_append]
  rw [← Nat.shiftLeft_add_eq_or_of_lt t.isLt, Nat.shiftLeft_eq]

@[simp] theorem decodeUop_uword (o : BitVec 4) (t : Index) :
    decodeUop (uword o t) = decodeFields o.toNat t := by simp [decodeUop]

@[simp] theorem commandWord_start (b : Bool) (v : Quad) : (commandWord b v).getLsbD 64 = b := by
  simp only [commandWord, BitVec.getLsbD_append]
  cases b <;> rfl

@[simp] theorem commandWord_hlen (b : Bool) (v : Quad) : (commandWord b v).extractLsb' 0 64 = v := by
  apply BitVec.eq_of_getLsbD_eq
  intro i hi
  simp only [commandWord, BitVec.getLsbD_extractLsb', BitVec.getLsbD_append, Nat.zero_add]
  simp [hi]

/-- START is the one thing the port decodes to, and `HLEN` is used as it stands (R88). -/
@[simp] theorem decodeCommand_commandWord (b : Bool) (v : Quad) :
    decodeCommand (commandWord b v) = if b then .ok (.start v) else .error .noCommand := by
  rw [decodeCommand, commandWord_start, commandWord_hlen]

/-! ## The successor words in hex, as the opcode table writes them (R86) -/

theorem seqWait_eq : seqWait = 0x000#10 := rfl
theorem seqPad_eq : seqPad = 0x040#10 := rfl
theorem seqHinit_eq : seqHinit = 0x080#10 := rfl
theorem seqRinit_eq : seqRinit = 0x140#10 := rfl
theorem seqFfwd_eq : seqFfwd = 0x1C0#10 := rfl
theorem seqNext_eq : seqNext = 0x200#10 := rfl
theorem seqAsm_eq : seqAsm = 0x240#10 := rfl
theorem seqFin_eq : seqFin = 0x280#10 := rfl
theorem seqFault_eq : seqFault = 0x2C0#10 := rfl

theorem seqLdw_toNat (t : Index) : (seqLdw t).toNat = 0x0C0 + t.toNat := uword_toNat 3 t
theorem seqExpw_toNat (t : Index) : (seqExpw t).toNat = 0x100 + t.toNat := uword_toNat 4 t
theorem seqRound_toNat (t : Index) : (seqRound t).toNat = 0x180 + t.toNat := uword_toNat 6 t

/-- The opcode map read backwards (R86, R90): which opcode number and index each instruction decodes from. -/
theorem decodeFields_eq_ok {o : Nat} {t : Index} {i : Instr} :
    decodeFields o t = .ok i ↔
      match i with
      | .wait => o = 0 ∧ t.toNat = 0
      | .pad => o = 1 ∧ t.toNat = 0
      | .hinit => o = 2 ∧ t.toNat = 0
      | .ldw u => o = 3 ∧ u = t ∧ t.toNat < 16
      | .expw u => o = 4 ∧ u = t ∧ 16 ≤ t.toNat
      | .rinit => o = 5 ∧ t.toNat = 0
      | .round u => o = 6 ∧ u = t
      | .ffwd => o = 7 ∧ t.toNat = 0
      | .next => o = 8 ∧ t.toNat = 0
      | .asm => o = 9 ∧ t.toNat = 0
      | .fin => o = 10 ∧ t.toNat = 0
      | .fault => o = 11 ∧ t.toNat = 0
      | .start _ => False := by
  have hu : ∀ j k : Instr, withoutIndex t j = .ok k ↔ k = j ∧ t.toNat = 0 := by
    intro j k
    unfold withoutIndex
    by_cases h : t.toNat = 0
    · rw [if_pos h]; exact ⟨fun e => ⟨by cases e; rfl, h⟩, fun e => by rw [e.1]⟩
    · rw [if_neg h]; exact ⟨(fun e => nomatch e), fun e => absurd e.2 h⟩
  have hi : ∀ j k : Instr, withIndex j = .ok k ↔ k = j ∧ j.wellFormed = true := by
    intro j k
    unfold withIndex
    by_cases h : j.wellFormed = true
    · rw [if_pos h]; exact ⟨fun e => ⟨by cases e; rfl, h⟩, fun e => by rw [e.1]⟩
    · rw [if_neg h]; exact ⟨(fun e => nomatch e), fun e => absurd e.2 h⟩
  unfold decodeFields
  split <;> simp only [hu, hi, Instr.wellFormed, decide_eq_true_eq, reduceCtorEq] <;> clear hu hi <;>
    cases i <;> simp <;> (intro h; contradiction)

end Sys2Proof
end

