-- ==== Sys2Proof/Laws/Memory.lean ====
section
/-! SUPPORT. The laws of a byte memory: read after write, and the canonical form is kept by every operation. -/

namespace Sys2Proof.Machine

@[simp] theorem Memory.read_nil (a : Nat) : Memory.read [] a = none := rfl

theorem Memory.read_cons (c : Host.Cell) (m : Memory) (a : Nat) :
    Memory.read (c :: m) a = if c.1 = a then some c.2 else Memory.read m a := rfl

theorem Memory.read_write_same (m : Memory) (a : Nat) (b : Byte) : (m.write a b).read a = some b := by
  induction m with
  | nil => simp [Memory.write, Memory.read]
  | cons c m ih =>
    simp only [Memory.write]
    split
    · simp [Memory.read]
    · split
      · simp [Memory.read]
      · rw [Memory.read_cons, if_neg (by omega), ih]

theorem Memory.read_write_other (m : Memory) {a x : Nat} (b : Byte) (h : x ≠ a) :
    (m.write a b).read x = m.read x := by
  induction m with
  | nil => simp [Memory.write, Memory.read, Ne.symm h]
  | cons c m ih =>
    simp only [Memory.write]
    split
    · rw [Memory.read_cons, if_neg (Ne.symm h)]
    · split
      · rename_i _ hac
        rw [Memory.read_cons, Memory.read_cons, if_neg (Ne.symm h), if_neg (by omega)]
      · rw [Memory.read_cons, Memory.read_cons, ih]

theorem Memory.read_write (m : Memory) (a x : Nat) (b : Byte) :
    (m.write a b).read x = if x = a then some b else m.read x := by
  split
  · subst x; exact m.read_write_same a b
  · exact m.read_write_other b ‹_›

/-- Everything `writeBytes` does, seen through a read of one byte. -/
theorem Memory.read_writeBytes (m : Memory) (a : Nat) (bs : List Byte) (x : Nat) :
    (m.writeBytes a bs).read x =
      if a ≤ x ∧ x < a + bs.length then bs[x - a]? else m.read x := by
  induction bs generalizing m a with
  | nil => simp only [Memory.writeBytes, List.length_nil]; rw [if_neg (by omega)]
  | cons b bs ih =>
    rw [Memory.writeBytes, ih, Memory.read_write]
    by_cases h1 : x = a
    · subst x
      rw [if_neg (by omega), if_pos rfl, if_pos (by simp)]
      simp
    · by_cases h2 : a + 1 ≤ x ∧ x < a + 1 + bs.length
      · rw [if_pos h2, if_pos (by simp only [List.length_cons]; omega),
          show x - a = (x - (a + 1)) + 1 by omega, List.getElem?_cons_succ]
      · rw [if_neg h2, if_neg h1, if_neg (by simp only [List.length_cons]; omega)]

theorem Memory.mem_write {m : Memory} {a : Nat} {b : Byte} {c : Host.Cell} (h : c ∈ m.write a b) :
    c = (a, b) ∨ c ∈ m := by
  induction m with
  | nil => simpa [Memory.write] using h
  | cons d m ih =>
    simp only [Memory.write] at h
    split at h
    · simpa using h
    · split at h
      · simp only [List.mem_cons] at h ⊢; tauto
      · simp only [List.mem_cons] at h ⊢
        rcases h with h | h
        · tauto
        · rcases ih h with h | h <;> tauto

theorem Memory.wf_write {m : Memory} (h : m.wf) (a : Nat) (b : Byte) : (m.write a b).wf := by
  induction m with
  | nil => simp [Memory.write, Memory.wf]
  | cons c m ih =>
    simp only [Memory.wf, List.pairwise_cons] at h ih ⊢
    simp only [Memory.write]
    split
    · rename_i hlt
      simp only [List.pairwise_cons, List.mem_cons]
      refine ⟨?_, h⟩
      rintro d (rfl | hd)
      · exact hlt
      · exact Nat.lt_trans hlt (h.1 d hd)
    · split
      · rename_i _ heq
        simp only [List.pairwise_cons]
        exact ⟨fun d hd => heq ▸ h.1 d hd, h.2⟩
      · simp only [List.pairwise_cons]
        refine ⟨fun d hd => ?_, ih h.2⟩
        rcases Memory.mem_write hd with rfl | hd
        · show c.1 < a; omega
        · exact h.1 d hd

theorem Memory.below_write {m : Memory} {k : Nat} (h : m.below k) {a : Nat} (b : Byte) (ha : a < k) :
    (m.write a b).below k := by
  intro c hc
  rcases Memory.mem_write hc with rfl | hc
  · exact ha
  · exact h c hc

theorem Memory.wf_writeBytes {m : Memory} (h : m.wf) (a : Nat) (bs : List Byte) :
    (m.writeBytes a bs).wf := by
  induction bs generalizing m a with
  | nil => exact h
  | cons b bs ih => exact ih (Memory.wf_write h a b) (a + 1)

theorem Memory.below_writeBytes {m : Memory} {k : Nat} (h : m.below k) {a : Nat} (bs : List Byte)
    (ha : a + bs.length ≤ k) : (m.writeBytes a bs).below k := by
  induction bs generalizing m a with
  | nil => exact h
  | cons b bs ih =>
    simp only [List.length_cons] at ha
    exact ih (Memory.below_write h b (by omega)) (by omega)

/-- Every byte `readBytes` answers, one at a time. -/
theorem Memory.readBytes_eq_ok {m : Memory} {a n : Nat} {bs : List Byte} :
    m.readBytes a n = .ok bs ↔ bs.length = n ∧ ∀ i < n, m.read (a + i) = bs[i]? := by
  induction n generalizing a bs with
  | zero =>
    simp only [Memory.readBytes, Except.ok.injEq]
    constructor
    · rintro rfl; simp
    · rintro ⟨h, -⟩; exact (List.length_eq_zero_iff.mp h).symm
  | succ n ih =>
    simp only [Memory.readBytes]
    constructor
    · intro h
      split at h
      · cases h
      · rename_i b hb
        split at h
        · cases h
        · rename_i cs hcs
          cases h
          obtain ⟨hl, hr⟩ := ih.mp hcs
          refine ⟨by simp [hl], ?_⟩
          intro i hi
          cases i with
          | zero => simpa using hb
          | succ i =>
            rw [List.getElem?_cons_succ, ← hr i (by omega)]
            congr 1; omega
    · rintro ⟨hl, hr⟩
      obtain ⟨b, cs, rfl⟩ : ∃ b cs, bs = b :: cs := by
        cases bs with
        | nil => simp at hl
        | cons b cs => exact ⟨b, cs, rfl⟩
      have h0 := hr 0 (by omega)
      simp only [Nat.add_zero, List.getElem?_cons_zero] at h0
      have hcs : m.readBytes (a + 1) n = .ok cs := by
        refine ih.mpr ⟨by simpa using hl, fun i hi => ?_⟩
        have := hr (i + 1) (by omega)
        rw [List.getElem?_cons_succ] at this
        rw [← this]; congr 1; omega
      simp [h0, hcs]

/-- `readBytes` stops at the lowest address without a value. -/
theorem Memory.readBytes_eq_error {m : Memory} {a n x : Nat} :
    m.readBytes a n = .error x ↔
      a ≤ x ∧ x < a + n ∧ m.read x = none ∧ ∀ y, a ≤ y → y < x → (m.read y).isSome := by
  induction n generalizing a with
  | zero =>
    simp only [Memory.readBytes, reduceCtorEq, false_iff]
    omega
  | succ n ih =>
    simp only [Memory.readBytes]
    constructor
    · intro h
      split at h
      · cases h
        exact ⟨by omega, by omega, ‹_›, by omega⟩
      · rename_i b hb
        split at h
        · rename_i y hy
          cases h
          obtain ⟨h1, h2, h3, h4⟩ := ih.mp hy
          refine ⟨by omega, by omega, h3, fun z hz hzx => ?_⟩
          by_cases hza : z = a
          · subst z; simp [hb]
          · exact h4 z (by omega) hzx
        · cases h
    · rintro ⟨h1, h2, h3, h4⟩
      by_cases hax : a = x
      · subst x; simp [h3]
      · have hs := h4 a (by omega) (by omega)
        obtain ⟨b, hb⟩ := Option.isSome_iff_exists.mp hs
        have : m.readBytes (a + 1) n = .error x :=
          ih.mpr ⟨by omega, by omega, h3, fun y hy hyx => h4 y (by omega) hyx⟩
        simp [hb, this]

/-- `readBytes` depends on the bytes it reads alone. -/
theorem Memory.readBytes_congr {m n : Memory} {a k : Nat}
    (h : ∀ x, a ≤ x → x < a + k → m.read x = n.read x) : m.readBytes a k = n.readBytes a k := by
  induction k generalizing a with
  | zero => rfl
  | succ k ih =>
    simp only [Memory.readBytes]
    rw [h a (by omega) (by omega), ih (fun x h1 h2 => h x (by omega) (by omega))]

end Sys2Proof.Machine
end

