-- ==== Sys2Proof/Laws/State.lean ====
section
/-! SUPPORT. What each named update of the state does to each field. -/

namespace Sys2Proof.Machine

/-! ## Fault entry (R164) -/

@[simp] theorem faultEntry_h (f : FaultCode) (s : State) : (faultEntry f s).h = s.h := rfl
@[simp] theorem faultEntry_r (f : FaultCode) (s : State) : (faultEntry f s).r = s.r := rfl
@[simp] theorem faultEntry_w (f : FaultCode) (s : State) : (faultEntry f s).w = s.w := rfl
@[simp] theorem faultEntry_seq (f : FaultCode) (s : State) : (faultEntry f s).seq = seqFault := rfl
@[simp] theorem faultEntry_blk (f : FaultCode) (s : State) : (faultEntry f s).blk = s.blk := rfl
@[simp] theorem faultEntry_nblk (f : FaultCode) (s : State) : (faultEntry f s).nblk = s.nblk := rfl
@[simp] theorem faultEntry_len (f : FaultCode) (s : State) : (faultEntry f s).len = s.len := rfl
@[simp] theorem faultEntry_err (f : FaultCode) (s : State) : (faultEntry f s).err = codeOf f := rfl
@[simp] theorem faultEntry_digest (f : FaultCode) (s : State) : (faultEntry f s).digest = s.digest := rfl
@[simp] theorem faultEntry_pm (f : FaultCode) (s : State) : (faultEntry f s).pm = s.pm := rfl
@[simp] theorem faultEntry_msg (f : FaultCode) (s : State) : (faultEntry f s).msg = s.msg := rfl
@[simp] theorem faultEntry_cfg (f : FaultCode) (s : State) : (faultEntry f s).cfg = s.cfg := rfl
@[simp] theorem faultEntry_inputs (f : FaultCode) (s : State) : (faultEntry f s).inputs = s.inputs := rfl

/-! ## A write of `W[t]` (R23) -/

@[simp] theorem setW_h (t : Index) (v : Word) (s : State) : (setW s t v).h = s.h := rfl
@[simp] theorem setW_r (t : Index) (v : Word) (s : State) : (setW s t v).r = s.r := rfl
@[simp] theorem setW_w (t : Index) (v : Word) (s : State) : (setW s t v).w = s.w.set t.toNat v t.isLt := rfl
@[simp] theorem setW_seq (t : Index) (v : Word) (s : State) : (setW s t v).seq = s.seq := rfl
@[simp] theorem setW_blk (t : Index) (v : Word) (s : State) : (setW s t v).blk = s.blk := rfl
@[simp] theorem setW_nblk (t : Index) (v : Word) (s : State) : (setW s t v).nblk = s.nblk := rfl
@[simp] theorem setW_len (t : Index) (v : Word) (s : State) : (setW s t v).len = s.len := rfl
@[simp] theorem setW_err (t : Index) (v : Word) (s : State) : (setW s t v).err = s.err := rfl
@[simp] theorem setW_digest (t : Index) (v : Word) (s : State) : (setW s t v).digest = s.digest := rfl
@[simp] theorem setW_pm (t : Index) (v : Word) (s : State) : (setW s t v).pm = s.pm := rfl
@[simp] theorem setW_msg (t : Index) (v : Word) (s : State) : (setW s t v).msg = s.msg := rfl
@[simp] theorem setW_cfg (t : Index) (v : Word) (s : State) : (setW s t v).cfg = s.cfg := rfl
@[simp] theorem setW_inputs (t : Index) (v : Word) (s : State) : (setW s t v).inputs = s.inputs := rfl

/-! ## PAD's effect (R100) -/

@[simp] theorem padWith_h (m : List Byte) (s : State) : (padWith m s).h = s.h := rfl
@[simp] theorem padWith_r (m : List Byte) (s : State) : (padWith m s).r = s.r := rfl
@[simp] theorem padWith_w (m : List Byte) (s : State) : (padWith m s).w = s.w := rfl
@[simp] theorem padWith_seq (m : List Byte) (s : State) : (padWith m s).seq = seqHinit := rfl
@[simp] theorem padWith_blk (m : List Byte) (s : State) : (padWith m s).blk = s.blk := rfl
@[simp] theorem padWith_nblk (m : List Byte) (s : State) : (padWith m s).nblk = BitVec.ofNat 64 (blockCount m.length) := rfl
@[simp] theorem padWith_len (m : List Byte) (s : State) : (padWith m s).len = s.len := rfl
@[simp] theorem padWith_err (m : List Byte) (s : State) : (padWith m s).err = s.err := rfl
@[simp] theorem padWith_digest (m : List Byte) (s : State) : (padWith m s).digest = s.digest := rfl
@[simp] theorem padWith_pm (m : List Byte) (s : State) : (padWith m s).pm = s.pm.writeBytes 0 (paddedBytes m) := rfl
@[simp] theorem padWith_msg (m : List Byte) (s : State) : (padWith m s).msg = s.msg := rfl
@[simp] theorem padWith_cfg (m : List Byte) (s : State) : (padWith m s).cfg = s.cfg := rfl
@[simp] theorem padWith_inputs (m : List Byte) (s : State) : (padWith m s).inputs = s.inputs := rfl

/-! ## Taking a move off the list -/

@[simp] theorem takeMove_h (s : State) : (takeMove s).h = s.h := rfl
@[simp] theorem takeMove_r (s : State) : (takeMove s).r = s.r := rfl
@[simp] theorem takeMove_w (s : State) : (takeMove s).w = s.w := rfl
@[simp] theorem takeMove_seq (s : State) : (takeMove s).seq = s.seq := rfl
@[simp] theorem takeMove_blk (s : State) : (takeMove s).blk = s.blk := rfl
@[simp] theorem takeMove_nblk (s : State) : (takeMove s).nblk = s.nblk := rfl
@[simp] theorem takeMove_len (s : State) : (takeMove s).len = s.len := rfl
@[simp] theorem takeMove_err (s : State) : (takeMove s).err = s.err := rfl
@[simp] theorem takeMove_digest (s : State) : (takeMove s).digest = s.digest := rfl
@[simp] theorem takeMove_pm (s : State) : (takeMove s).pm = s.pm := rfl
@[simp] theorem takeMove_msg (s : State) : (takeMove s).msg = s.msg := rfl
@[simp] theorem takeMove_cfg (s : State) : (takeMove s).cfg = s.cfg := rfl
@[simp] theorem takeMove_inputs (s : State) : (takeMove s).inputs = s.inputs.tail := rfl

/-! ## Reset (R180) -/

@[simp] theorem afterReset_h (s : State) : (afterReset s).h = State.reset.h := rfl
@[simp] theorem afterReset_r (s : State) : (afterReset s).r = State.reset.r := rfl
@[simp] theorem afterReset_w (s : State) : (afterReset s).w = State.reset.w := rfl
@[simp] theorem afterReset_seq (s : State) : (afterReset s).seq = State.reset.seq := rfl
@[simp] theorem afterReset_blk (s : State) : (afterReset s).blk = State.reset.blk := rfl
@[simp] theorem afterReset_nblk (s : State) : (afterReset s).nblk = State.reset.nblk := rfl
@[simp] theorem afterReset_len (s : State) : (afterReset s).len = State.reset.len := rfl
@[simp] theorem afterReset_err (s : State) : (afterReset s).err = State.reset.err := rfl
@[simp] theorem afterReset_digest (s : State) : (afterReset s).digest = State.reset.digest := rfl
@[simp] theorem afterReset_pm (s : State) : (afterReset s).pm = State.reset.pm := rfl
@[simp] theorem afterReset_msg (s : State) : (afterReset s).msg = s.msg := rfl
@[simp] theorem afterReset_cfg (s : State) : (afterReset s).cfg = s.cfg := rfl
@[simp] theorem afterReset_inputs (s : State) : (afterReset s).inputs = s.inputs := rfl

/-! ## Flags of a state whose `SEQ` is unchanged -/

theorem busy_congr {s t : State} (h : t.seq = s.seq) : busy t = busy s := by
  simp [busy, idle, done, faulted, h]

theorem statusWord_congr {s t : State} (hs : t.seq = s.seq) (he : t.err = s.err) :
    statusWord t = statusWord s := by
  simp [statusWord, done, busy_congr hs, hs, he]

end Sys2Proof.Machine
end

