-- ==== Sys2Proof/Laws/Ops.lean ====
section
/-! SUPPORT. What each shared operation can do, said once. -/

namespace Sys2Proof.Machine

theorem getW_setW_same (s : State) (t : Index) (v : Word) : getW (setW s t v) t = v := by
  simp [getW]

theorem getW_setW_other (s : State) {t u : Index} (v : Word) (h : u ≠ t) :
    getW (setW s t v) u = getW s u := by
  have : t.toNat ≠ u.toNat := fun e => h (BitVec.eq_of_toNat_eq e.symm)
  simp [getW, this]

theorem getW_eq (s : State) (t : Index) : getW s t = s.w[t.toNat]! := by
  simp [getW, getElem!_pos s.w t.toNat t.isLt]

theorem setW_eq (s : State) (t : Index) (v : Word) : setW s t v = { s with w := s.w.set! t.toNat v } := by
  simp [setW, Vector.set!_eq_setIfInBounds, Vector.setIfInBounds, Vector.set, Array.setIfInBounds, t.isLt]

theorem roundConstant_eq (t : Index) : roundConstant t = krom[t.toNat]! := by
  simp [roundConstant, getElem!_pos krom t.toNat t.isLt]

/-- A write of one schedule word leaves the others. -/
theorem set!_getElem!_other (v : Vector Word 64) {n j : Nat} (x : Word) (h : j ≠ n) :
    (v.set! n x)[j]! = v[j]! := by
  by_cases hj : j < 64
  · rw [getElem!_pos (v.set! n x) _ hj, getElem!_pos v _ hj]
    simp [Vector.set!_eq_setIfInBounds, Ne.symm h]
  · rw [getElem!_neg (v.set! n x) _ hj, getElem!_neg v _ hj]

/-- The index arithmetic of EXPW does not wrap where the word is legal (R87, R111). -/
theorem index_sub_toNat {t : Index} {n : Nat} (hn : n ≤ 16) (h : 16 ≤ t.toNat) :
    (t - BitVec.ofNat 6 n).toNat = t.toNat - n := by
  rw [BitVec.toNat_sub]
  have := t.isLt
  simp
  omega

/-- The rotation of R9 is the rotation of the bit-vector library. -/
theorem rotr_eq_rotateRight (x : Word) {n : Nat} (h : n < 32) : rotr x n = x.rotateRight n := by
  unfold rotr BitVec.rotateRight BitVec.rotateRightAux
  rw [Nat.mod_eq_of_lt h]

/-- One round on registers given one by one (R121). -/
theorem roundRegs_literal (k w a b c d e f g h : Word) :
    roundRegs k w #v[a, b, c, d, e, f, g, h] =
      #v[(h + bsig1 e + ch e f g + k + w) + (bsig0 a + maj a b c), a, b, c,
         d + (h + bsig1 e + ch e f g + k + w), e, f, g] := rfl

/-- A read of one `PM` byte depends on whether its address exists and on that byte alone. -/
theorem readPm_congr {s u : State} {a : Nat} (h1 : a < s.cfg.pmCap ↔ a < u.cfg.pmCap)
    (h2 : s.pm.read a = u.pm.read a) : readPm s a = readPm u a := by
  simp [readPm, h1, h2]

/-- A read of one `PM` byte answers exactly when the address exists and holds a value. -/
theorem readPm_eq_ok {s : State} {a : Nat} {b : Byte} :
    readPm s a = .ok b ↔ a < s.cfg.pmCap ∧ s.pm.read a = some b := by
  unfold readPm
  split
  · rename_i h
    cases hr : s.pm.read a <;> simp [h]
  · rename_i h
    simp [h]

theorem readPm_eq_error {s : State} {a : Nat} {f : Fault} :
    readPm s a = .error f ↔
      (a < s.cfg.pmCap ∧ s.pm.read a = none ∧ f = .pmUnwritten a) ∨ (s.cfg.pmCap ≤ a ∧ f = .pmOutside a) := by
  unfold readPm
  split
  · rename_i h
    have h' : ¬ s.cfg.pmCap ≤ a := by omega
    cases hr : s.pm.read a <;> simp [h, h', eq_comm]
  · rename_i h
    simp [h, Nat.le_of_not_lt h, eq_comm]

/-- A word read of `PM` depends on the reads of its four bytes alone. -/
theorem readPmWord_congr {s u : State} {a : Nat} (h : ∀ j < 4, readPm s (a + j) = readPm u (a + j)) :
    readPmWord s a = readPmWord u a := by
  have h0 : readPm s a = readPm u a := h 0 (by omega)
  simp only [readPmWord, h0, h 1 (by omega), h 2 (by omega), h 3 (by omega)]

/-- A word read of `PM` answers exactly when its four bytes do (R81). -/
theorem readPmWord_eq_ok {s : State} {a : Nat} {v : Word} :
    readPmWord s a = .ok v ↔
      ∃ b0 b1 b2 b3, readPm s a = .ok b0 ∧ readPm s (a + 1) = .ok b1 ∧ readPm s (a + 2) = .ok b2 ∧
        readPm s (a + 3) = .ok b3 ∧ v = be32 b0 b1 b2 b3 := by
  unfold readPmWord
  cases readPm s a <;> cases readPm s (a + 1) <;> cases readPm s (a + 2) <;> cases readPm s (a + 3) <;>
    simp [eq_comm]

/-- A word read of `PM` stops at its first byte that does not answer. -/
theorem readPmWord_eq_error {s : State} {a : Nat} {f : Fault} :
    readPmWord s a = .error f ↔
      ∃ j < 4, (∀ i < j, ∃ b, readPm s (a + i) = .ok b) ∧ readPm s (a + j) = .error f := by
  constructor
  · intro h
    unfold readPmWord at h
    split at h
    · exact ⟨0, by omega, by omega, by simp_all⟩
    · rename_i b0 h0
      split at h
      · refine ⟨1, by omega, fun i hi => ⟨b0, ?_⟩, by simp_all⟩
        obtain rfl : i = 0 := by omega
        exact h0
      · rename_i b1 h1
        split at h
        · refine ⟨2, by omega, fun i hi => ?_, by simp_all⟩
          obtain rfl | rfl : i = 0 ∨ i = 1 := by omega
          · exact ⟨b0, h0⟩
          · exact ⟨b1, h1⟩
        · rename_i b2 h2
          split at h
          · refine ⟨3, by omega, fun i hi => ?_, by simp_all⟩
            obtain rfl | rfl | rfl : i = 0 ∨ i = 1 ∨ i = 2 := by omega
            · exact ⟨b0, h0⟩
            · exact ⟨b1, h1⟩
            · exact ⟨b2, h2⟩
          · cases h
  · rintro ⟨j, hj, hb, he⟩
    obtain rfl | rfl | rfl | rfl : j = 0 ∨ j = 1 ∨ j = 2 ∨ j = 3 := by omega
    · simp [readPmWord] at he ⊢; simp [he]
    · obtain ⟨b0, h0⟩ := hb 0 (by omega)
      simp [readPmWord, he, show readPm s a = .ok b0 from h0]
    · obtain ⟨b0, h0⟩ := hb 0 (by omega)
      obtain ⟨b1, h1⟩ := hb 1 (by omega)
      simp [readPmWord, he, h1, show readPm s a = .ok b0 from h0]
    · obtain ⟨b0, h0⟩ := hb 0 (by omega)
      obtain ⟨b1, h1⟩ := hb 1 (by omega)
      obtain ⟨b2, h2⟩ := hb 2 (by omega)
      simp [readPmWord, he, h1, h2, show readPm s a = .ok b0 from h0]

@[simp] theorem lengthField_length (n : Nat) : (lengthField n).length = 8 := by simp [lengthField]

@[simp] theorem paddedBytes_length (m : List Byte) : (paddedBytes m).length = paddedLength m.length := by
  simp [paddedBytes, paddedLength]; omega

theorem raise_eq (f : FaultCode) (s : State) : raise f s = .next (faultEntry f s) := rfl

/-- Everything PAD can do (R100): one of its two fault entries, the stuck fault, or the padded message. -/
theorem execPad_cases (s : State) :
    (2 ^ 61 ≤ s.len.toNat ∧ execPad s = .next (faultEntry .lengthOverflow s)) ∨
    (s.len.toNat < 2 ^ 61 ∧ s.cfg.pmCap < paddedLength s.len.toNat ∧
      execPad s = .next (faultEntry .capacityFault s)) ∨
    (s.len.toNat < 2 ^ 61 ∧ paddedLength s.len.toNat ≤ s.cfg.pmCap ∧
      ((∃ a, s.msg.readBytes 0 s.len.toNat = .error a ∧ execPad s = .fault (.msgAbsent a)) ∨
       (∃ m, s.msg.readBytes 0 s.len.toNat = .ok m ∧ execPad s = .next (padWith m s)))) := by
  unfold execPad
  by_cases h1 : 2 ^ 61 ≤ s.len.toNat
  · exact .inl ⟨h1, by rw [if_pos h1]; rfl⟩
  · rw [if_neg h1]
    by_cases h2 : s.cfg.pmCap < paddedLength s.len.toNat
    · exact .inr (.inl ⟨by omega, h2, by rw [if_pos h2]; rfl⟩)
    · rw [if_neg h2]
      refine .inr (.inr ⟨by omega, by omega, ?_⟩)
      cases h : s.msg.readBytes 0 s.len.toNat with
      | error a => exact .inl ⟨a, rfl, rfl⟩
      | ok m => exact .inr ⟨m, rfl, rfl⟩

/-- Everything LDW can do (R110, R90). -/
theorem execLdw_cases (t : Index) (s : State) :
    (16 ≤ t.toNat ∧ execLdw t s = .next (faultEntry .illegalUop s)) ∨
    (t.toNat < 16 ∧
      ((∃ f, readPmWord s (ldwAddr s.blk t) = .error f ∧ execLdw t s = .fault f) ∨
       (∃ v, readPmWord s (ldwAddr s.blk t) = .ok v ∧
          execLdw t s = .next { setW s t v with seq := afterLdw t }))) := by
  unfold execLdw
  by_cases h : t.toNat < 16
  · rw [if_pos h]
    refine .inr ⟨h, ?_⟩
    cases hr : readPmWord s (ldwAddr s.blk t) with
    | error f => exact .inl ⟨f, rfl, rfl⟩
    | ok v => exact .inr ⟨v, rfl, rfl⟩
  · exact .inl ⟨by omega, by rw [if_neg h]; rfl⟩

/-- Everything START can do (R140). -/
theorem execStart_cases (len : Quad) (s : State) :
    ((s.seq = seqWait ∨ s.seq = seqFin) ∧ execStart len s = .next { s with len := len, seq := seqPad }) ∨
    (s.seq ≠ seqWait ∧ s.seq ≠ seqFin ∧ execStart len s = .next s) := by
  unfold execStart idle done
  by_cases h1 : s.seq = seqWait
  · exact .inl ⟨.inl h1, by simp [h1]⟩
  · by_cases h2 : s.seq = seqFin
    · exact .inl ⟨.inr h2, by simp [h2]⟩
    · exact .inr ⟨h1, h2, by simp [h1, h2]⟩

/-- A step is the next move, performed on the state with that move taken off the list. -/
theorem step_of_inputs_nil {s : State} (h : s.inputs = []) : nextMove s = .engine ∧ takeMove s = s := by
  cases s; subst h; exact ⟨rfl, rfl⟩

end Sys2Proof.Machine
end

