-- ==== Sys2Proof/Laws/Engine.lean ====
section
/-! SUPPORT. Everything the Engine's step and a step of the machine can do, said once. -/

namespace Sys2Proof.Machine

/-- The ways the Engine's step goes on, one constructor per row of the sequencer table (R146). -/
inductive EngineStepTo (s : State) : State → Prop where
  | standing (h : s.seq = seqWait ∨ s.seq = seqFin ∨ s.seq = seqFault) : EngineStepTo s s
  | padTooLong (h : s.seq = seqPad) (hl : 2 ^ 61 ≤ s.len.toNat) : EngineStepTo s (faultEntry .lengthOverflow s)
  | padTooBig (h : s.seq = seqPad) (hl : s.len.toNat < 2 ^ 61) (hc : s.cfg.pmCap < paddedLength s.len.toNat) :
      EngineStepTo s (faultEntry .capacityFault s)
  | pad (m : List Byte) (h : s.seq = seqPad) (hl : s.len.toNat < 2 ^ 61)
      (hc : paddedLength s.len.toNat ≤ s.cfg.pmCap) (hm : s.msg.readBytes 0 s.len.toNat = .ok m) :
      EngineStepTo s (padWith m s)
  | hinit (h : s.seq = seqHinit) : EngineStepTo s { s with h := ivrom, blk := 0, seq := seqLdw 0 }
  | ldw (t : Index) (v : Word) (h : s.seq = seqLdw t) (ht : t.toNat < 16)
      (hv : readPmWord s (ldwAddr s.blk t) = .ok v) : EngineStepTo s { setW s t v with seq := afterLdw t }
  | expw (t : Index) (h : s.seq = seqExpw t) (ht : 16 ≤ t.toNat) :
      EngineStepTo s { setW s t (expwValue s t) with seq := afterExpw t }
  | rinit (h : s.seq = seqRinit) : EngineStepTo s { s with r := s.h, seq := seqRound 0 }
  | round (t : Index) (h : s.seq = seqRound t) :
      EngineStepTo s { s with r := roundRegs (roundConstant t) (getW s t) s.r, seq := afterRound t }
  | ffwd (h : s.seq = seqFfwd) : EngineStepTo s { s with h := addRegs s.h s.r, seq := seqNext }
  | next (h : s.seq = seqNext) :
      EngineStepTo s { s with blk := blkAfterNext s.blk s.nblk, seq := afterNext s.blk s.nblk }
  | asm (h : s.seq = seqAsm) : EngineStepTo s { s with digest := serialise s.h, seq := seqFin }
  | reserved (h : ∀ i, decode (.uop s.seq) ≠ .ok i) : EngineStepTo s (faultEntry .illegalUop s)

/-- Inversion of the Engine's step. -/
theorem engineStep_eq_next {s t : State} (h : engineStep s = .next t) : EngineStepTo s t := by
  unfold engineStep at h
  split at h
  · rename_i i hd
    have hf := decodeFields_eq_ok.mp (show decodeFields (opcOf s.seq).toNat (indexOf s.seq) = .ok i from hd)
    have key : ∀ o : BitVec 4, (opcOf s.seq).toNat = o.toNat → s.seq = uword o (indexOf s.seq) := fun o ho => by
      rw [← BitVec.eq_of_toNat_eq ho, uword_fields]
    have key0 : ∀ o : BitVec 4, (opcOf s.seq).toNat = o.toNat ∧ (indexOf s.seq).toNat = 0 → s.seq = uword o 0 :=
      fun o ho => by rw [key o ho.1, show indexOf s.seq = 0 from BitVec.eq_of_toNat_eq (by simpa using ho.2)]
    cases i with
    | wait => cases h; exact .standing (.inl (key0 0 hf))
    | fin => cases h; exact .standing (.inr (.inl (key0 10 hf)))
    | fault => cases h; exact .standing (.inr (.inr (key0 11 hf)))
    | pad =>
      rcases execPad_cases s with ⟨h1, h2⟩ | ⟨h0, h1, h2⟩ | ⟨h0, h1, ⟨a, _, h2⟩ | ⟨m, hm, h2⟩⟩ <;>
        simp only [exec, h2, Host.Outcome.next.injEq, reduceCtorEq] at h <;> subst h
      · exact .padTooLong (key0 1 hf) h1
      · exact .padTooBig (key0 1 hf) h0 h1
      · exact .pad m (key0 1 hf) h0 h1 hm
    | hinit => cases h; exact .hinit (key0 2 hf)
    | ldw n =>
      obtain ⟨h1, rfl, h3⟩ := hf
      rcases execLdw_cases (indexOf s.seq) s with ⟨h4, _⟩ | ⟨_, ⟨f, _, h2⟩ | ⟨v, hv, h2⟩⟩
      · omega
      · simp only [exec, h2, reduceCtorEq] at h
      · simp only [exec, h2, Host.Outcome.next.injEq] at h
        subst h
        exact .ldw _ v (key 3 h1) h3 hv
    | expw n =>
      obtain ⟨h1, rfl, h3⟩ := hf
      simp only [exec, execExpw, h3, if_true, Host.Outcome.next.injEq] at h
      subst h
      exact .expw _ (key 4 h1) h3
    | rinit => cases h; exact .rinit (key0 5 hf)
    | round n => obtain ⟨h1, rfl⟩ := hf; cases h; exact .round _ (key 6 h1)
    | ffwd => cases h; exact .ffwd (key0 7 hf)
    | next => cases h; exact .next (key0 8 hf)
    | asm => cases h; exact .asm (key0 9 hf)
    | start _ => exact hf.elim
  · rename_i e hd
    cases h
    exact .reserved fun i hi => by rw [hd] at hi; cases hi

/-- The ways a step of the machine goes on: the Engine's step, or a move of the Host. -/
inductive StepTo (s : State) : State → Prop where
  | engine {t : State} (h : nextMove s = .engine) (ht : EngineStepTo (takeMove s) t) : StepTo s t
  | start (len : Quad) (h : nextMove s = .port (commandWord true len)) (hs : s.seq = seqWait ∨ s.seq = seqFin) :
      StepTo s { takeMove s with len := len, seq := seqPad }
  | ignored (w : PortWord) (h : nextMove s = .port w) : StepTo s (takeMove s)
  | rst (h : nextMove s = .rst) : StepTo s (afterReset (takeMove s))
  | putMsg (a : Quad) (b : Byte) (h : nextMove s = .putMsg a b) (hb : busy s = false) :
      StepTo s { takeMove s with msg := s.msg.write a.toNat b }
  | read (h : nextMove s = .readStatus ∨ ∃ n, nextMove s = .readDigest n) : StepTo s (takeMove s)

/-- A port word whose `start` bit is 1 is the START of its `HLEN` (R88). -/
theorem decodeCommand_eq_ok {w : PortWord} {i : Instr} (h : decodeCommand w = .ok i) :
    ∃ len, i = .start len ∧ w = commandWord true len := by
  unfold decodeCommand at h
  split at h
  · rename_i hw
    cases h
    refine ⟨_, rfl, ?_⟩
    apply BitVec.eq_of_getLsbD_eq
    intro j hj
    simp only [commandWord, BitVec.getLsbD_append, BitVec.getLsbD_extractLsb', Nat.zero_add]
    by_cases hj2 : j < 64
    · simp [hj2]
    · obtain rfl : j = 64 := by omega
      simp_all
  · cases h

/-- Inversion of a step of the machine. -/
theorem step_eq_next {s t : State} (h : step s = .next t) : StepTo s t := by
  unfold step performMove at h
  split at h
  · rename_i hm; exact .engine hm (engineStep_eq_next h)
  · rename_i w hm
    unfold presentPort at h
    split at h
    · rename_i i hd
      obtain ⟨len, rfl, rfl⟩ := decodeCommand_eq_ok hd
      rcases execStart_cases len (takeMove s) with ⟨h1, h2⟩ | ⟨_, _, h2⟩ <;>
        simp only [exec, h2, Host.Outcome.next.injEq] at h <;> subst h
      · exact .start len hm h1
      · exact .ignored _ hm
    · cases h; exact .ignored w hm
  · rename_i hm; cases h; exact .rst hm
  · rename_i a b hm
    unfold Sys2Proof.Machine.putMsg at h
    split at h
    · cases h
    · rename_i hb
      cases h
      exact .putMsg a b hm (by simpa [busy, idle, done, faulted] using hb)
  · rename_i hm; cases h; exact .read (.inl hm)
  · rename_i n hm
    split at h
    · cases h; exact .read (.inr ⟨n, hm⟩)
    · cases h

/-! ## The successor words as numbers -/

theorem afterLdw_toNat (t : Index) : (afterLdw t).toNat = if t.toNat < 15 then 0x0C1 + t.toNat else 0x110 := by
  unfold afterLdw
  split
  · rw [seqLdw_toNat, BitVec.toNat_add]; simp; omega
  · rfl

theorem afterExpw_toNat (t : Index) : (afterExpw t).toNat = if t.toNat < 63 then 0x101 + t.toNat else 0x140 := by
  unfold afterExpw
  split
  · rw [seqExpw_toNat, BitVec.toNat_add]; simp; omega
  · rfl

theorem afterRound_toNat (t : Index) : (afterRound t).toNat = if t.toNat < 63 then 0x181 + t.toNat else 0x1C0 := by
  unfold afterRound
  split
  · rw [seqRound_toNat, BitVec.toNat_add]; simp; omega
  · rfl

theorem afterNext_cases (a b : Quad) : afterNext a b = seqLdw 0 ∨ afterNext a b = seqAsm := by
  unfold afterNext
  split_ifs <;> simp

end Sys2Proof.Machine
end

