-- ==== Sys2Proof/Laws/PerInstr.lean ====
section
/-! SUPPORT. A family of facts about the instruction as syntax: the fields of its word (R85 to R88). -/

namespace Sys2Proof.Laws.EncodeFields

/-- The opcode number R86 gives a micro-operation, and the index its word carries; the port fields R88 gives START. -/
def Statement : Instr → Prop
  | .wait => encode .wait = .uop 0x000#10
  | .pad => encode .pad = .uop 0x040#10
  | .hinit => encode .hinit = .uop 0x080#10
  | .ldw t => ∃ w, encode (.ldw t) = .uop w ∧ w.toNat = 0x0C0 + t.toNat
  | .expw t => ∃ w, encode (.expw t) = .uop w ∧ w.toNat = 0x100 + t.toNat
  | .rinit => encode .rinit = .uop 0x140#10
  | .round t => ∃ w, encode (.round t) = .uop w ∧ w.toNat = 0x180 + t.toNat
  | .ffwd => encode .ffwd = .uop 0x1C0#10
  | .next => encode .next = .uop 0x200#10
  | .asm => encode .asm = .uop 0x240#10
  | .fin => encode .fin = .uop 0x280#10
  | .fault => encode .fault = .uop 0x2C0#10
  | .start len => ∃ w, encode (.start len) = .command w ∧ w.getLsbD 64 = true ∧ w.extractLsb' 0 64 = len

theorem wait : Statement .wait := by simp only [Statement]; decide
theorem pad : Statement .pad := by simp only [Statement]; decide
theorem hinit : Statement .hinit := by simp only [Statement]; decide
theorem ldw (t : Index) : Statement (.ldw t) := ⟨uword 3 t, rfl, by rw [uword_toNat]; rfl⟩
theorem expw (t : Index) : Statement (.expw t) := ⟨uword 4 t, rfl, by rw [uword_toNat]; rfl⟩
theorem rinit : Statement .rinit := by simp only [Statement]; decide
theorem round (t : Index) : Statement (.round t) := ⟨uword 6 t, rfl, by rw [uword_toNat]; rfl⟩
theorem ffwd : Statement .ffwd := by simp only [Statement]; decide
theorem next : Statement .next := by simp only [Statement]; decide
theorem asm : Statement .asm := by simp only [Statement]; decide
theorem fin : Statement .fin := by simp only [Statement]; decide
theorem fault : Statement .fault := by simp only [Statement]; decide
theorem start (len : Quad) : Statement (.start len) :=
  ⟨commandWord true len, rfl, commandWord_start true len, commandWord_hlen true len⟩

end Sys2Proof.Laws.EncodeFields
end

