-- ==== Sys2Proof/Tests/Slice0.lean ====
section
/-! SUPPORT. Tests with values from 95_test_vectors and the encoding tables, and a state that meets the hypotheses of each
statement. Every expected value is the spec's own. -/

namespace Sys2Proof.Machine.Slice0

/-! ## Helpers -/

/-- The next state of an outcome, if it is one. -/
def nextOf : Host.Outcome State Fault Refusal → Option State
  | .next s => some s
  | .fault _ => none
  | .refused _ => none

/-- The fault of an outcome, if it is one. -/
def faultOf : Host.Outcome State Fault Refusal → Option Fault
  | .next _ => none
  | .fault f => some f
  | .refused _ => none

/-- The refusal of an outcome, if it is one. -/
def refusalOf : Host.Outcome State Fault Refusal → Option Refusal
  | .next _ => none
  | .fault _ => none
  | .refused r => some r

/-- A memory with these bytes from address 0. -/
def bytes (bs : List Byte) : Memory := Memory.writeBytes [] 0 bs

/-- The reset state with this word in `SEQ`. -/
def withSeq (w : UWord) : State := { State.reset with seq := w }

/-- The reset state with this move to come. -/
def withMove (w : UWord) (m : Move) : State := { withSeq w with inputs := [m] }

/-- At PAD, with `LEN`, `PM_CAP` and message as given. -/
def atPad (len : Quad) (cap : Nat) (m : List Byte) : State :=
  { withSeq 0x040 with len := len, cfg := { pmCap := cap }, msg := bytes m }

/-- The padded message of "abc" (95_test_vectors 2.2). -/
def abcPadded : List Byte :=
  [0x61, 0x62, 0x63, 0x80] ++ List.replicate 52 0 ++ [0, 0, 0, 0, 0, 0, 0, 0x18]

/-- Inside the run on "abc", at the word `w`: the block is in `PM`, `NBLK` is 1. -/
def inAbc (w : UWord) : State := { withSeq w with pm := bytes abcPadded, nblk := 1, len := 3, msg := bytes [0x61, 0x62, 0x63] }

/-- The schedule words 0..15 of "abc", the rest 0 (95_test_vectors P2). -/
def abcW : Vector Word 64 := ((Vector.replicate 64 0).set 0 0x61626380).set 15 0x00000018

/-- The initial hash value (R63). -/
def iv : Vector Word 8 :=
  #v[0x6a09e667, 0xbb67ae85, 0x3c6ef372, 0xa54ff53a, 0x510e527f, 0x9b05688c, 0x1f83d9ab, 0x5be0cd19]

/-! ## WellFormed: each check refuses an ill-formed term -/

theorem test_ldw_index_refused : (Instr.ldw 16).wellFormed = false := by decide
theorem test_ldw_index_admitted : (Instr.ldw 15).wellFormed = true := by decide
theorem test_expw_index_refused : (Instr.expw 15).wellFormed = false := by decide
theorem test_expw_index_admitted : (Instr.expw 16).wellFormed = true := by decide

/-! ## Decode: words written out bit by bit from R85, R86 and R88, `opc` in bits 9:6 and `t` in bits 5:0 -/

theorem test_decode_wait : decode (.uop 0b0000000000) = .ok .wait := by rfl
theorem test_decode_pad : decode (.uop 0b0001000000) = .ok .pad := by rfl
theorem test_decode_hinit : decode (.uop 0b0010000000) = .ok .hinit := by rfl
theorem test_decode_ldw : decode (.uop 0b0011001101) = .ok (.ldw 13) := by rfl
theorem test_decode_expw : decode (.uop 0b0100101001) = .ok (.expw 41) := by rfl
theorem test_decode_rinit : decode (.uop 0b0101000000) = .ok .rinit := by rfl
theorem test_decode_round : decode (.uop 0b0110010000) = .ok (.round 16) := by rfl
theorem test_decode_ffwd : decode (.uop 0b0111000000) = .ok .ffwd := by rfl
theorem test_decode_next : decode (.uop 0b1000000000) = .ok .next := by rfl
theorem test_decode_asm : decode (.uop 0b1001000000) = .ok .asm := by rfl
theorem test_decode_fin : decode (.uop 0b1010000000) = .ok .fin := by rfl
theorem test_decode_fault : decode (.uop 0b1011000000) = .ok .fault := by rfl
theorem test_decode_start : decode (.command 0b10000000000000000000000000000000000000000000000000000000000000101) = .ok (.start 5) := by
  rfl
theorem test_decode_no_command : decode (.command 0x0FFFFFFFFFFFFFFFF) = .error .noCommand := by rfl

/-- 95_test_vectors 2.10: of the 1024 words 137 are legal. -/
theorem test_legal_words : (List.range 1024).countP (fun n => legalWord (BitVec.ofNat 10 n)) = 137 := by decide +kernel

/-- The words of spec/opcode_table.json as the host numbers them, for the first, an indexed and the widest row. -/
theorem test_table_words :
    decodeTableWord 16 0x000 = some .wait ∧ decodeTableWord 16 0x0CF = some (.ldw 15) ∧
    decodeTableWord 16 0x300 = none ∧ decodeTableWord 16 0x440 = none ∧
    decodeTableWord 72 0x10000000000000003 = some (.start 3) ∧ decodeTableWord 72 0x3 = none := by decide

/-- `withFetchWord` makes the very next step run the word, from reset. -/
theorem test_fetch_word :
    (nextOf (step (State.reset.withFetchWord 16 0x080))).map (fun t => (t.seq, t.h)) = some (0x0C0, iv) ∧
    (nextOf (step (State.reset.withFetchWord 72 0x10000000000000003))).map (fun t => (t.seq, t.len)) = some (0x040, 3) := by
  decide

/-! ## Primitives (95_test_vectors 2.1) -/

theorem test_rotations :
    rotr 0x12345678 1 = 0x091a2b3c ∧ rotr 0x12345678 31 = 0x2468acf0 ∧ ssig0 0x61626380 = 0x940e90ef ∧
    ssig1 0x61626380 = 0x7da86405 ∧ bsig0 0x61626380 = 0x8dd59276 ∧ bsig1 0x61626380 = 0xc0b865f2 ∧
    ssig0 0xffffffff = 0x1fffffff ∧ ssig1 0xffffffff = 0x003fffff := by decide

theorem test_choose_majority :
    ch 0x510e527f 0x9b05688c 0x1f83d9ab = 0x1f85c98c ∧ maj 0x6a09e667 0xbb67ae85 0x3c6ef372 = 0x3a6fe667 ∧
    ch 0xf0f0f0f0 0xff00ff00 0x0f0f0f0f = 0xff0fff0f ∧ maj 0xffffffff 0x12345678 0x9abcdef0 = 0x9abcdef8 := by decide

theorem test_big_endian :
    be32 0x61 0x62 0x63 0x80 = 0x61626380 ∧ byteOf 0xba7816bf 0 = 0xba ∧ byteOf 0xba7816bf 3 = 0xbf ∧
    be64Byte 0x1c0 6 = 0x01 ∧ be64Byte 0x1c0 7 = 0xc0 := by decide

/-- Table D-PAD: `k`, `L`, `N` for 0, 55, 56, 120 and the longest message. -/
theorem test_pad_numbers :
    [0, 55, 56, 120, 2 ^ 61 - 1].map (fun n => (zeroCount n, paddedLength n, blockCount n)) =
      [(55, 64, 1), (0, 64, 1), (63, 128, 2), (63, 192, 3), (56, 2 ^ 61 + 64, 2 ^ 55 + 1)] := by decide

/-! ## One step of each instruction (95_test_vectors 2.2 to 2.8, 2.10) -/

/-- `LEN` = 1, `MSG` = `ff`: a byte with its top bit set is copied unchanged. -/
theorem test_pad_one_byte :
    (nextOf (step (atPad 1 128 [0xff]))).map (fun t => (t.pm, t.nblk, t.seq)) =
      some (bytes ([0xff, 0x80] ++ List.replicate 54 0 ++ [0, 0, 0, 0, 0, 0, 0, 0x08]), 1, 0x080) := by decide +kernel

/-- `LEN` = 55: no zero byte, one block. -/
theorem test_pad_55 :
    (nextOf (step (atPad 55 64 (List.replicate 55 0x61)))).map (fun t => (t.pm, t.nblk)) =
      some (bytes (List.replicate 55 0x61 ++ [0x80] ++ [0, 0, 0, 0, 0, 0, 0x01, 0xb8]), 1) := by decide +kernel

theorem test_hinit :
    (nextOf (step { withSeq 0x080 with blk := 7 })).map (fun t => (t.h, t.blk, t.seq)) = some (iv, 0, 0x0C0) := by decide

/-- The last word of "abc". -/
theorem test_ldw_15 :
    (nextOf (step (inAbc 0x0CF))).map (fun t => (t.w[15], t.w[14], t.seq)) = some (0x00000018, 0, 0x110) := by
  decide +kernel

/-- Bytes `01 02 03 04` read as `01020304`, not `04030201`. -/
theorem test_ldw_byte_order :
    (nextOf (step { withSeq 0x0C0 with pm := bytes [1, 2, 3, 4] })).map (fun t => (t.w[0], t.seq)) =
      some (0x01020304, 0x0C1) := by decide

theorem test_expw_17 :
    (nextOf (step { withSeq 0x111 with w := abcW.set 16 0x61626380 })).map (fun t => (t.w[17], t.seq)) =
      some (0x000f0000, 0x112) := by decide

theorem test_expw_18 :
    (nextOf (step { withSeq 0x112 with w := (abcW.set 16 0x61626380).set 17 0x000f0000 })).map (fun t => t.w[18]) =
      some 0x7da86405 := by decide

/-- RINIT of the second block of S3 copies the hash state, not the initial value. -/
theorem test_rinit :
    (nextOf (step { withSeq 0x140 with h := #v[0x85e655d6, 0x417a1795, 0x3363376a, 0x624cde5c, 0x76e09589, 0xcac5f811,
      0xcc4b32c1, 0xf20e533a] })).map (fun t => (t.r, t.seq)) =
      some (#v[0x85e655d6, 0x417a1795, 0x3363376a, 0x624cde5c, 0x76e09589, 0xcac5f811, 0xcc4b32c1, 0xf20e533a],
        0x180) := by decide

/-- "abc", t = 0: `T1` wraps. -/
theorem test_round_0 :
    (nextOf (step { withSeq 0x180 with r := iv, w := abcW })).map (fun t => (t.r, t.seq)) =
      some (#v[0x5d6aebcd, 0x6a09e667, 0xbb67ae85, 0x3c6ef372, 0xfa2a4622, 0x510e527f, 0x9b05688c, 0x1f83d9ab],
        0x181) := by decide

/-- "abc", t = 63. -/
theorem test_round_63 :
    (nextOf (step { withSeq 0x1BF with
      r := #v[0xd39a2165, 0x04d24d6c, 0xb85e2ce9, 0xb6ae8fff, 0xfb121210, 0x948d25b6, 0x961f4894, 0xb21bad3d]
      w := abcW.set 63 0x12b1edeb })).map (fun t => (t.r, t.seq)) =
      some (#v[0x506e3058, 0xd39a2165, 0x04d24d6c, 0xb85e2ce9, 0x5ef50f24, 0xfb121210, 0x948d25b6, 0x961f4894],
        0x1C0) := by decide

/-- "abc": `H[1]` wraps and no carry passes into `H[0]`. -/
theorem test_ffwd :
    (nextOf (step { withSeq 0x1C0 with
      h := iv
      r := #v[0x506e3058, 0xd39a2165, 0x04d24d6c, 0xb85e2ce9, 0x5ef50f24, 0xfb121210, 0x948d25b6, 0x961f4894] })).map
        (fun t => (t.h, t.seq)) =
      some (#v[0xba7816bf, 0x8f01cfea, 0x414140de, 0x5dae2223, 0xb00361a3, 0x96177a9c, 0xb410ff61, 0xf20015ad],
        0x200) := by decide

theorem test_next_loop :
    (nextOf (step { withSeq 0x200 with blk := 14, nblk := 16 })).map (fun t => (t.blk, t.seq)) = some (15, 0x0C0) := by
  decide

theorem test_next_end :
    (nextOf (step { withSeq 0x200 with blk := 15, nblk := 16 })).map (fun t => (t.blk, t.seq)) = some (16, 0x240) := by
  decide

/-- The check of the byte lanes. -/
theorem test_asm_lanes :
    (nextOf (step { withSeq 0x240 with h := #v[0x00000001, 0x00000200, 0x00030000, 0x04000000, 0xffffffff, 0x00000000,
      0x80000000, 0x0a0b0c0d] })).map (fun t => (t.digest.toList, t.seq, statusWord t)) =
      some ([0, 0, 0, 1, 0, 0, 2, 0, 0, 3, 0, 0, 4, 0, 0, 0, 0xff, 0xff, 0xff, 0xff, 0, 0, 0, 0, 0x80, 0, 0, 0, 0x0a, 0x0b,
        0x0c, 0x0d], 0x280, 0b0010) := by decide

theorem test_standing_words :
    nextOf (step (withSeq 0x000)) = some (withSeq 0x000) ∧ nextOf (step (withSeq 0x280)) = some (withSeq 0x280) ∧
    nextOf (step (withSeq 0x2C0)) = some (withSeq 0x2C0) := by decide

theorem test_start_accepted :
    (nextOf (step (withMove 0x000 (.port 0x10000000000000003)))).map (fun t => (t.len, t.seq, statusWord t)) =
      some (3, 0x040, 0b0001) ∧
    (nextOf (step (withMove 0x280 (.port 0x10000000000000000)))).map (fun t => (t.len, t.seq)) = some (0, 0x040) := by
  decide

theorem test_start_ignored :
    nextOf (step { withMove 0x0C0 (.port 0x10000000000000005) with len := 3 }) = some { withSeq 0x0C0 with len := 3 } ∧
    nextOf (step { withMove 0x2C0 (.port 0x10000000000000003) with err := 2 }) = some { withSeq 0x2C0 with err := 2 } := by
  decide

theorem test_reset_move :
    (nextOf (step { withMove 0x2C0 .rst with err := 2 })).map (fun t => (t.seq, t.err, statusWord t)) =
      some (0x000, 0, 0b0000) ∧
    (nextOf (step (withMove 0x190 .rst))).map (fun t => (t.seq, t.err)) = some (0x000, 0) := by decide

/-- Faults of PAD: capacity 64 and length 56, length 2^61, and the length test first. -/
theorem test_pad_faults :
    nextOf (step (atPad 56 64 [])) = some { atPad 56 64 [] with err := 2, seq := 0x2C0 } ∧
    nextOf (step (atPad 0x2000000000000000 64 [])) = some { atPad 0x2000000000000000 64 [] with err := 1, seq := 0x2C0 } ∧
    nextOf (step (atPad 0xFFFFFFFFFFFFFFFF 64 [])) =
      some { atPad 0xFFFFFFFFFFFFFFFF 64 [] with err := 1, seq := 0x2C0 } := by decide

/-- The reserved words of 2.10, forced into `SEQ`. -/
theorem test_reserved_words :
    ([0x300, 0x0D0, 0x100, 0x001].map fun w =>
      (nextOf (step (withSeq w))).map fun t => (t.err, t.seq, statusWord t)) =
      List.replicate 4 (some (3, 0x2C0, 0b1100)) := by decide

/-! ## A state for each statement: its hypotheses can be met -/

/-- StepRunsDecodedInstruction, each clause. -/
theorem witness_step_runs :
    ((withSeq 0x080).inputs = [] ∧ decode (.uop (withSeq 0x080).seq) = .ok .hinit) ∧
    ((withMove 0x080 .engine).inputs = .engine :: [] ∧ decode (.uop (withMove 0x080 .engine).seq) = .ok .hinit) ∧
    ((withMove 0x000 (.port (commandWord true 3))).inputs = .port (commandWord true 3) :: [] ∧
      decode (.command (commandWord true 3)) = .ok (.start 3)) ∧
    (withMove 0x000 (.port (commandWord false 3))).inputs = .port (commandWord false 3) :: [] :=
  ⟨⟨rfl, rfl⟩, ⟨rfl, rfl⟩, ⟨rfl, rfl⟩, rfl⟩

/-- DecodeOfEncode, EncodeOfDecode and EncodeFields: the ends of every range. -/
theorem witness_well_formed :
    [Instr.wait, .pad, .hinit, .ldw 0, .ldw 15, .expw 16, .expw 63, .rinit, .round 0, .round 63, .ffwd, .next, .asm,
      .fin, .fault, .start 0, .start 0xFFFFFFFFFFFFFFFF].all Instr.wellFormed = true := by decide

theorem witness_decode_ok :
    decode (.uop 0x0CF) = .ok (.ldw 15) ∧ decode (.uop 0x110) = .ok (.expw 16) ∧ decode (.uop 0x13F) = .ok (.expw 63) ∧
    decode (.uop 0x1BF) = .ok (.round 63) ∧
    decode (.command 0x1FFFFFFFFFFFFFFFF) = .ok (.start 0xFFFFFFFFFFFFFFFF) := ⟨rfl, rfl, rfl, rfl, rfl⟩

/-- ResetMoveFromAnyState. -/
theorem witness_reset_move : (withMove 0x190 .rst).inputs = .rst :: [] := rfl

/-- StartAcceptedOrIgnored, each clause. -/
theorem witness_start :
    (withSeq 0x000).seq = 0x000 ∧ (withSeq 0x280).seq = 0x280 ∧
    (withSeq 0x2C0).seq ≠ 0x000 ∧ (withSeq 0x2C0).seq ≠ 0x280 ∧
    (withSeq 0x040).seq ≠ 0x000 ∧ (withSeq 0x040).seq ≠ 0x280 := by decide

/-- PadBuildsPaddedMessage, each clause at the value where it begins or ends. -/
theorem witness_pad_too_long : 2 ^ 61 ≤ (atPad 0x2000000000000000 64 []).len.toNat := by decide

theorem witness_pad_too_big :
    (atPad 0x1FFFFFFFFFFFFFFF (2 ^ 61) []).len.toNat < 2 ^ 61 ∧
    (atPad 0x1FFFFFFFFFFFFFFF (2 ^ 61) []).cfg.pmCap <
      (atPad 0x1FFFFFFFFFFFFFFF (2 ^ 61) []).len.toNat + 1 +
        ((55 - ((atPad 0x1FFFFFFFFFFFFFFF (2 ^ 61) []).len.toNat : Int)) % 64).toNat + 8 := by decide

theorem witness_pad_fits :
    let s := atPad 55 64 (List.replicate 55 0x61)
    s.len.toNat < 2 ^ 61 ∧ s.len.toNat + 1 + ((55 - (s.len.toNat : Int)) % 64).toNat + 8 ≤ s.cfg.pmCap ∧
      ∀ n < s.len.toNat, (s.msg.read n).isSome = true := by decide +kernel

theorem witness_pad_empty :
    let s := atPad 0 64 []
    s.len.toNat < 2 ^ 61 ∧ s.len.toNat + 1 + ((55 - (s.len.toNat : Int)) % 64).toNat + 8 ≤ s.cfg.pmCap ∧
      ∀ n < s.len.toNat, (s.msg.read n).isSome = true := by decide

/-- PadIsStuckWithoutMessageByte: byte 2 of "abc" was not put. -/
theorem witness_pad_stuck :
    let s := atPad 3 128 [0x61, 0x62]
    s.len.toNat < 2 ^ 61 ∧ paddedLength s.len.toNat ≤ s.cfg.pmCap ∧ 2 < s.len.toNat ∧ s.msg.read 2 = none ∧
      (∀ n < 2, (s.msg.read n).isSome = true) ∧ faultOf (exec .pad s) = some (.msgAbsent 2) := by decide

/-- LengthOverflowExactly and CapacityFaultExactly: both sides of each bound. -/
theorem witness_pad_bounds :
    2 ^ 61 ≤ (atPad 0x2000000000000000 64 []).len.toNat ∧ ¬ 2 ^ 61 ≤ (atPad 0x1FFFFFFFFFFFFFFF 64 []).len.toNat ∧
    (atPad 55 64 []).cfg.Valid ∧ paddedLength (atPad 55 64 []).len.toNat ≤ (atPad 55 64 []).cfg.pmCap ∧
    (atPad 56 64 []).cfg.Valid ∧ (atPad 56 64 []).cfg.pmCap < paddedLength (atPad 56 64 []).len.toNat := by decide

/-- LdwLoadsBigEndianWord at t = 15 of the last block that `PM` holds, the top of `PM`, and at t = 14. -/
theorem witness_ldw :
    let s : State := { inAbc 0x0CF with cfg := { pmCap := 64 } }
    (15#6).toNat < 16 ∧ 64 * s.blk.toNat + 4 * (15#6).toNat + 3 < s.cfg.pmCap ∧ s.pm.read 60 = some 0 ∧
      s.pm.read 61 = some 0 ∧ s.pm.read 62 = some 0 ∧ s.pm.read 63 = some 0x18 ∧
      (14#6).toNat < 16 ∧ s.pm.read 56 = some 0 ∧ s.pm.read 57 = some 0 ∧ s.pm.read 58 = some 0 ∧
      s.pm.read 59 = some 0 := by decide +kernel

/-- LdwStopsAtFirstAbsentByte: byte 3 not written, byte 0 not written, and the first address that does not exist. -/
theorem witness_ldw_stops :
    faultOf (exec (.ldw 0) { withSeq 0x0C0 with pm := bytes [1, 2, 3] }) = some (.pmUnwritten 3) ∧
    faultOf (exec (.ldw 15) (withSeq 0x0CF)) = some (.pmUnwritten 60) ∧
    faultOf (exec (.ldw 0) { withSeq 0x0C0 with blk := 2 }) = some (.pmOutside 128) := by decide

/-- ExpwComputesScheduleWord and ReservedIndexRaisesIllegalUop at the ends of the ranges. -/
theorem witness_expw :
    16 ≤ (16 : Index).toNat ∧ 16 ≤ (63 : Index).toNat ∧ (15 : Index).toNat < 16 ∧ (0 : Index).toNat < 16 := by decide

theorem witness_reserved_index :
    nextOf (exec (.ldw 16) State.reset) = some { State.reset with err := 3, seq := 0x2C0 } ∧
    nextOf (exec (.expw 15) State.reset) = some { State.reset with err := 3, seq := 0x2C0 } := by decide

/-- RoundUpdatesWorkingRegisters: any `R` is eight words. -/
theorem witness_round :
    ({ withSeq 0x180 with r := iv } : State).r =
      #v[0x6a09e667, 0xbb67ae85, 0x3c6ef372, 0xa54ff53a, 0x510e527f, 0x9b05688c, 0x1f83d9ab, 0x5be0cd19] := rfl

/-- NextAdvancesBlock, each clause. -/
theorem witness_next :
    ({ withSeq 0x200 with blk := 0, nblk := 2 } : State).blk.toNat + 1 <
      ({ withSeq 0x200 with blk := 0, nblk := 2 } : State).nblk.toNat ∧
    ({ withSeq 0x200 with blk := 1, nblk := 2 } : State).blk.toNat + 1 =
      ({ withSeq 0x200 with blk := 1, nblk := 2 } : State).nblk.toNat := by decide

/-- NextPastTheEndStillCompletes: just past the end, and at the top of `BLK`. -/
theorem witness_next_past :
    ({ withSeq 0x200 with blk := 2, nblk := 2 } : State).nblk.toNat <
      ({ withSeq 0x200 with blk := 2, nblk := 2 } : State).blk.toNat + 1 ∧
    ({ withSeq 0x200 with blk := 0xFFFFFFFFFFFFFFFF, nblk := 0xFFFFFFFFFFFFFFFF } : State).nblk.toNat <
      ({ withSeq 0x200 with blk := 0xFFFFFFFFFFFFFFFF, nblk := 0xFFFFFFFFFFFFFFFF } : State).blk.toNat + 1 := by decide

/-- ReservedWordsRaiseIllegalUop: one reserved word of each kind, and steps from a legal and from a reserved word. -/
theorem witness_reserved_word :
    ([0x300, 0x0D0, 0x10F, 0x001].map fun w => legalWord (withSeq w).seq) = List.replicate 4 false ∧
    legalWord (withSeq 0x080).seq = true ∧ nextMove (withSeq 0x300) = .engine ∧
    (nextOf (step (withSeq 0x080))).isSome = true ∧ (nextOf (step (withSeq 0x300))).isSome = true := by decide

/-- FaultEntryChangesErrAndSeqOnly and SequencerTable, on a reserved word: a reserved opcode and a reserved index. -/
theorem witness_no_instruction :
    (∀ i, decode (.uop (withSeq 0x300).seq) ≠ .ok i) ∧ (∀ i, decode (.uop (withSeq 0x0D0).seq) ≠ .ok i) :=
  ⟨fun i h => absurd (show (.error .reservedOpcode : Except DecodeError Instr) = .ok i from h) (by simp),
   fun i h => absurd (show (.error .reservedIndex : Except DecodeError Instr) = .ok i from h) (by simp)⟩

/-- WritesStayInTheirRow: every instruction has a state it goes on from (PAD and LDW: above and here). -/
theorem witness_writes :
    ([Instr.wait, .pad, .hinit, .ldw 15, .ldw 16, .expw 63, .expw 15, .rinit, .round 63, .ffwd, .next, .asm, .fin, .fault,
      .start 3].map fun i => (nextOf (exec i (inAbc 0x0CF))).isSome).all id = true := by decide +kernel

/-- ReadsStayInTheirRow: two different states, of different `PM_CAP`, that agree on what LDW 15 reads. -/
theorem witness_reads :
    (Instr.ldw 15).wellFormed = true ∧
    readsAgree (.ldw 15) (inAbc 0x0CF) { inAbc 0x1C0 with h := iv, cfg := { pmCap := 64 } } :=
  ⟨by decide, by unfold readsAgree; decide +kernel⟩

/-- ReadsStayInTheirRow: two states that differ in `LEN` and `BLK`, from which START is accepted, and ignored. -/
theorem witness_reads_start :
    (Instr.start 3).wellFormed = true ∧
    readsAgree (.start 3) (withSeq 0x280) { withSeq 0x280 with len := 9, blk := 1 } ∧
    readsAgree (.start 3) (withSeq 0x040) { withSeq 0x040 with len := 9, blk := 1 } := ⟨by decide, rfl, rfl⟩

/-- OnlyOwnersWrite and SequencerTable: a step of the Engine that changes the field, for every field the Engine owns. -/
theorem witness_owners :
    (nextOf (step (inAbc 0x080))).any (fun t => t.h ≠ (inAbc 0x080).h) ∧
    (nextOf (step { inAbc 0x1BF with r := iv })).any (fun t => t.r ≠ iv) ∧
    (nextOf (step (inAbc 0x0CF))).any (fun t => t.w ≠ (inAbc 0x0CF).w) ∧
    (nextOf (step (inAbc 0x200))).any (fun t => t.blk ≠ (inAbc 0x200).blk) ∧
    (nextOf (step (atPad 3 128 [0x61, 0x62, 0x63]))).any (fun t => t.nblk ≠ 0 ∧ t.pm ≠ []) ∧
    (nextOf (step { inAbc 0x240 with h := iv })).any (fun t => t.digest ≠ (inAbc 0x240).digest) ∧
    (nextOf (step (withMove 0x000 (.port (commandWord true 3))))).any (fun t => t.len ≠ 0) ∧
    (nextOf (step (atPad 56 64 []))).any (fun t => t.err ≠ 0) ∧
    (nextOf (step (withMove 0x280 (.port (commandWord true 3))))).any (fun t => t.seq = 0x040) ∧
    (nextOf (step (withMove 0x000 (.putMsg 0 0x61)))).any (fun t => t.msg ≠ []) := by decide +kernel

/-- SequencerTable: every row of it is taken by a step. -/
theorem witness_successors :
    ([(0x000, 0x000), (0x040, 0x080), (0x080, 0x0C0), (0x0C0, 0x0C1), (0x0CE, 0x0CF), (0x0CF, 0x110), (0x110, 0x111),
      (0x13E, 0x13F), (0x13F, 0x140), (0x140, 0x180), (0x180, 0x181), (0x1BE, 0x1BF), (0x1BF, 0x1C0), (0x1C0, 0x200),
      (0x200, 0x240), (0x240, 0x280), (0x280, 0x280), (0x2C0, 0x2C0), (0x100, 0x2C0)].all
        fun p => (nextOf (engineStep (inAbc p.1))).map (·.seq) = some p.2) ∧
    (nextOf (engineStep { inAbc 0x200 with nblk := 2 })).map (·.seq) = some 0x0C0 ∧
    (nextOf (engineStep (atPad 56 64 []))).map (·.seq) = some 0x2C0 := by decide +kernel

/-- ErrNonzeroExactlyInFault and StatusWordValues: in FAULT and outside it. -/
theorem witness_err :
    ((withSeq 0x040).err ≠ 0 ↔ (withSeq 0x040).seq = 0x2C0) ∧
    (({ withSeq 0x2C0 with err := 3 } : State).err ≠ 0 ↔ ({ withSeq 0x2C0 with err := 3 } : State).seq = 0x2C0) ∧
    statusWord { withSeq 0x2C0 with err := 3 } = 0b1100 ∧ statusWord (withSeq 0x040) = 0b0001 ∧
    (nextOf (step (atPad 56 64 []))).isSome = true ∧ (nextOf (step { withSeq 0x2C0 with err := 3 })).isSome = true := by
  decide

/-- FaultEntryChangesErrAndSeqOnly. -/
theorem witness_fault_entry :
    (atPad 56 64 []).seq ≠ 0x2C0 ∧ (nextOf (engineStep (atPad 56 64 []))).map (·.seq) = some 0x2C0 := by decide

/-- FaultIsLeftByResetOnly, each clause. -/
theorem witness_fault_left :
    let s : State := { withMove 0x2C0 .readStatus with err := 1 }
    let u : State := { withMove 0x2C0 .rst with err := 1 }
    s.seq = 0x2C0 ∧ (nextOf (step s)).isSome = true ∧ nextMove s ≠ .rst ∧
      u.seq = 0x2C0 ∧ (nextOf (step u)).isSome = true ∧ nextMove u = .rst := by decide

/-- BusyExactlyWhenEngineHasStep, each clause (the last one: witness_invariant and witness_invariant_stuck). -/
theorem witness_busy :
    busy (withSeq 0x000) = false ∧ busy (withSeq 0x280) = false ∧ busy (withSeq 0x2C0) = false ∧
    busy (withSeq 0x300) = true ∧ (nextOf (engineStep (withSeq 0x080))).isSome = true := by decide

/-- HostReadsChangeNothing, each clause; the reads of 2.8. -/
theorem witness_host_reads :
    (withMove 0x190 .readStatus).inputs = .readStatus :: [] ∧
    (withMove 0x280 (.readDigest 31)).seq = 0x280 ∧ (withMove 0x280 (.readDigest 31)).inputs = .readDigest 31 :: [] ∧
    refusalOf (step (withMove 0x2C0 (.readDigest 0))) = some .digestNotReadable ∧
    readStatus (withSeq 0x280) = 0b0010 := by decide

/-- HostWritesMessageOnlyWhenNotBusy, each clause. -/
theorem witness_host_writes :
    (withMove 0x280 (.putMsg 0 0x61)).inputs = .putMsg 0 0x61 :: [] ∧ busy (withMove 0x280 (.putMsg 0 0x61)) = false ∧
    busy (withMove 0x0C0 (.putMsg 0 0x61)) = true ∧
    refusalOf (step (withMove 0x0C0 (.putMsg 0 0x61))) = some .msgWriteWhileBusy := by decide

/-- HostViolationsAreNoFaults, each clause. -/
theorem witness_violations :
    busy (withMove 0x190 (.port 0x10000000000000005)) = true ∧ faulted (withMove 0x2C0 (.port 0x10000000000000005)) = true ∧
    (withMove 0x190 (.port 0x10000000000000005)).inputs = .port 0x10000000000000005 :: [] ∧
    done (withMove 0x000 (.readDigest 0)) = false ∧ (withMove 0x000 (.readDigest 0)).inputs = .readDigest 0 :: [] ∧
    (withMove 0x0C0 (.putMsg 0 0x61)).inputs = .putMsg 0 0x61 :: [] ∧
    (atPad 3 128 [0x61, 0x62]).inputs = [] ∧ (atPad 3 128 [0x61, 0x62]).seq = 0x040 ∧
    (withMove 0x190 (.port (commandWord false 9))).inputs = .port (commandWord false 9) :: [] := by decide

/-- EveryStepKeepsInvariant and EngineStopsOnlyForMissingMessage: a state inside the block loop meets the invariant, and
its step goes on. -/
theorem witness_invariant : Inv (inAbc 0x0CF) ∧ busy (inAbc 0x0CF) = true ∧ (nextOf (step (inAbc 0x0CF))).isSome = true ∧
    nextMove (inAbc 0x0CF) = .engine :=
  ⟨⟨by decide, by decide, by decide, by decide +kernel, by decide +kernel, by decide +kernel, by decide +kernel,
    by decide, by decide +kernel, by decide, by decide⟩, by decide, by decide +kernel, rfl⟩

/-- EngineStopsOnlyForMissingMessage: a state that meets the invariant where the message byte is missing. -/
theorem witness_invariant_stuck : Inv (atPad 3 128 []) ∧ busy (atPad 3 128 []) = true ∧ faultOf (step (atPad 3 128 [])) = some (.msgAbsent 0) :=
  ⟨⟨by decide, by decide, by decide, by decide, by decide, by decide, by decide, by decide, by decide, by decide,
    by decide⟩, by decide, by decide⟩

/-- PadArithmetic: the longest message. -/
theorem witness_pad_arithmetic : (0 : Nat) < 2 ^ 61 ∧ (2 ^ 61 - 1 : Nat) < 2 ^ 61 := by decide

/-- PaddedLayoutIsPadByte: a position of every kind, for "abc". -/
theorem witness_layout : [0x61, 0x62, 0x63].length = 3 ∧
    padMessage [0x61, 0x62, 0x63] = abcPadded := by decide +kernel

/-- RotateAndShiftBits and WordFunctions: the ends of the ranges. -/
theorem witness_bits : (0 < 1 ∧ 1 < 32 ∧ 0 < 31 ∧ 31 < 32) ∧ rotr 1 1 = 0x80000000 ∧ rotr 1 31 = 2 ∧ shr 0x80000000 31 = 1 :=
  by decide

/-- SchedComputesSchedule: the block of "abc". -/
theorem witness_sched :
    (inAbc 0x0C0).seq = 0x0C0 ∧ (inAbc 0x0C0).inputs = [] ∧ abcPadded.length = 64 ∧
    64 * (inAbc 0x0C0).blk.toNat + 64 ≤ (inAbc 0x0C0).cfg.pmCap ∧
    ∀ n < 64, (inAbc 0x0C0).pm.read (64 * (inAbc 0x0C0).blk.toNat + n) = abcPadded[n]? := by decide +kernel

/-- CompressComputesCompression. -/
theorem witness_compress : (inAbc 0x140).seq = 0x140 ∧ (inAbc 0x140).inputs = [] := by decide

/-- Ready to hash "abc" from reset. -/
def readyAbc : State :=
  { State.reset with msg := bytes [0x61, 0x62, 0x63], inputs := [.port (commandWord true (BitVec.ofNat 64 3))] }

/-- The same from DONE, with other register contents. -/
def readyAgain : State := { readyAbc with seq := 0x280, h := iv, r := iv, blk := 2, pm := bytes [1, 2, 3] }

/-- RunComputesDigest: "abc" from reset and from DONE. -/
theorem witness_run :
    (readyAbc.seq = 0x000 ∨ readyAbc.seq = 0x280) ∧ (readyAgain.seq = 0x000 ∨ readyAgain.seq = 0x280) ∧
    readyAbc.inputs = [.port (commandWord true (BitVec.ofNat 64 [0x61, 0x62, 0x63].length))] ∧
    readyAgain.inputs = readyAbc.inputs ∧
    [0x61, 0x62, 0x63].length < 2 ^ 61 ∧ paddedLength [0x61, 0x62, 0x63].length ≤ readyAbc.cfg.pmCap ∧
    ∀ n < 3, readyAbc.msg.read n = ([0x61, 0x62, 0x63] : List Byte)[n]? := by decide

/-- S2, the digest of "abc". -/
theorem test_digest_abc :
    (digestOf [0x61, 0x62, 0x63]).toList =
      [0xba, 0x78, 0x16, 0xbf, 0x8f, 0x01, 0xcf, 0xea, 0x41, 0x41, 0x40, 0xde, 0x5d, 0xae, 0x22, 0x23,
       0xb0, 0x03, 0x61, 0xa3, 0x96, 0x17, 0x7a, 0x9c, 0xb4, 0x10, 0xff, 0x61, 0xf2, 0x00, 0x15, 0xad] := by
  decide +kernel

/-- FaultingRunTakesOneStep, each clause. -/
theorem witness_faulting_run :
    (withMove 0x000 (.port (commandWord true 0x2000000000000000))).inputs = [.port (commandWord true 0x2000000000000000)] ∧
    2 ^ 61 ≤ (0x2000000000000000 : Quad).toNat ∧
    (withMove 0x000 (.port (commandWord true 120))).inputs = [.port (commandWord true 120)] ∧
    (120 : Quad).toNat < 2 ^ 61 ∧ State.reset.cfg.pmCap < paddedLength (120 : Quad).toNat := by decide

/-- RunDependsOnMessageOnly: the two states differ in registers, memory and phase. -/
theorem witness_depends :
    readyAbc.seq = 0x000 ∧ readyAgain.seq = 0x280 ∧ readyAbc.err = 0 ∧ readyAgain.err = 0 ∧
    readyAbc.inputs = [.port (commandWord true 3)] ∧ readyAgain.inputs = [.port (commandWord true 3)] ∧
    readyAbc.cfg = readyAgain.cfg ∧ readyAbc ≠ readyAgain ∧
    ∀ n < (3 : Quad).toNat, readyAbc.msg.read n = readyAgain.msg.read n := by decide

end Sys2Proof.Machine.Slice0
end

section
/-! PROOFS. The functions of the algorithm as numbers and bit by bit (00_scope R9, R11, R12). -/

namespace Sys2Proof.Machine

/-! ## Rotation and shift (R9) -/

theorem rotr_toNat (x : Word) (n : Nat) :
    (rotr x n).toNat = (x.toNat / 2 ^ n ||| x.toNat * 2 ^ (32 - n) % 2 ^ 32) := by
  simp only [rotr, BitVec.toNat_or, BitVec.toNat_ushiftRight, BitVec.toNat_shiftLeft, Nat.shiftRight_eq_div_pow,
    Nat.shiftLeft_eq]

/-- The bits below `32 - n` come down from `n` places higher, the others around from the low end. -/
theorem rotr_getLsbD (x : Word) {n i : Nat} (hn : n < 32) (hi : i < 32) :
    (rotr x n).getLsbD i = x.getLsbD ((i + n) % 32) := by
  rw [rotr_eq_rotateRight x hn, BitVec.getLsbD_rotateRight, Nat.mod_eq_of_lt hn]
  by_cases h : i < 32 - n
  · have hsource : (i + n) % 32 = n + i := by omega
    simp [h, hsource]
  · have hsource : (i + n) % 32 = i - (32 - n) := by omega
    simp [h, hi, hsource]

theorem shr_getLsbD (x : Word) (n i : Nat) :
    (shr x n).getLsbD i = if i + n ≤ 31 then x.getLsbD (i + n) else false := by
  rw [shr, BitVec.getLsbD_ushiftRight, Nat.add_comm n i]
  split
  · rfl
  · exact BitVec.getLsbD_of_ge x _ (by omega)

/-- Settles O43: the number and the bits of a rotation, and the bits of a shift. -/
theorem rotateAndShiftBits : Obligations.RotateAndShiftBits := by
  unfold Obligations.RotateAndShiftBits
  intro x n i _ hn hi
  exact ⟨rotr_toNat x n, rotr_getLsbD x hn hi, shr_getLsbD x n i⟩

/-! ## The six functions (R11) -/

theorem ssig0_eq (x : Word) : ssig0 x = x.rotateRight 7 ^^^ x.rotateRight 18 ^^^ x >>> 3 := by
  simp (disch := decide) only [ssig0, xor3, shr, rotr_eq_rotateRight]

theorem ssig1_eq (x : Word) : ssig1 x = x.rotateRight 17 ^^^ x.rotateRight 19 ^^^ x >>> 10 := by
  simp (disch := decide) only [ssig1, xor3, shr, rotr_eq_rotateRight]

theorem bsig0_eq (x : Word) : bsig0 x = x.rotateRight 2 ^^^ x.rotateRight 13 ^^^ x.rotateRight 22 := by
  simp (disch := decide) only [bsig0, xor3, rotr_eq_rotateRight]

theorem bsig1_eq (x : Word) : bsig1 x = x.rotateRight 6 ^^^ x.rotateRight 11 ^^^ x.rotateRight 25 := by
  simp (disch := decide) only [bsig1, xor3, rotr_eq_rotateRight]

/-- `Ch` selects: a bit of `x` says whether the bit of `y` or of `z` is taken. -/
theorem ch_getLsbD (x y z : Word) {i : Nat} (hi : i < 32) :
    (ch x y z).getLsbD i = if x.getLsbD i then y.getLsbD i else z.getLsbD i := by
  simp only [ch, BitVec.getLsbD_xor, BitVec.getLsbD_and, BitVec.getLsbD_not, hi, decide_true, Bool.true_and]
  cases x.getLsbD i <;> simp

/-- The exclusive OR of the three pairwise ANDs of three bits is their majority. -/
theorem xor_and_pairs_iff_majority (a b c : Bool) :
    (((a && b) ^^ (a && c)) ^^ (b && c)) = true ↔ 2 ≤ [a, b, c].count true := by
  revert a b c; decide

theorem maj_getLsbD_iff (x y z : Word) (i : Nat) :
    (maj x y z).getLsbD i = true ↔ 2 ≤ [x.getLsbD i, y.getLsbD i, z.getLsbD i].count true := by
  simp only [maj, xor3, BitVec.getLsbD_xor, BitVec.getLsbD_and]
  exact xor_and_pairs_iff_majority _ _ _

/-- Settles O44: the six functions by rotations, shifts and formulas, and the bits of `Ch` and `Maj`. -/
theorem wordFunctions : Obligations.WordFunctions := by
  unfold Obligations.WordFunctions
  intro x y z
  exact ⟨ssig0_eq x, ssig1_eq x, bsig0_eq x, bsig1_eq x, rfl, rfl,
    fun _ hi => ch_getLsbD x y z hi, fun i _ => maj_getLsbD_iff x y z i⟩

/-! ## Big-endian packing (R12) -/

/-- A byte appended at the low end: the rest moves up one byte. -/
theorem toNat_append_byte {n : Nat} (x : BitVec n) (b : Byte) : (x ++ b).toNat = x.toNat * 2 ^ 8 + b.toNat := by
  rw [BitVec.toNat_append, ← Nat.shiftLeft_add_eq_or_of_lt b.isLt, Nat.shiftLeft_eq]

theorem be32_toNat (b0 b1 b2 b3 : Byte) :
    (be32 b0 b1 b2 b3).toNat = b0.toNat * 2 ^ 24 + b1.toNat * 2 ^ 16 + b2.toNat * 2 ^ 8 + b3.toNat := by
  simp only [be32, toNat_append_byte]
  omega

theorem byteOf_toNat (w : Word) (i : Nat) : (byteOf w i).toNat = w.toNat / 2 ^ (24 - 8 * i) % 2 ^ 8 := by
  rw [byteOf, BitVec.extractLsb'_toNat, Nat.shiftRight_eq_div_pow]

theorem be64Byte_toNat (v : Quad) (i : Nat) : (be64Byte v i).toNat = v.toNat / 2 ^ (56 - 8 * i) % 2 ^ 8 := by
  rw [be64Byte, BitVec.extractLsb'_toNat, Nat.shiftRight_eq_div_pow]

/-- `BYTE_0` to `BYTE_3` take a packed word apart: each is a digit of `BE32` to base 2^8. -/
theorem byteOf_be32 (b0 b1 b2 b3 : Byte) :
    byteOf (be32 b0 b1 b2 b3) 0 = b0 ∧ byteOf (be32 b0 b1 b2 b3) 1 = b1 ∧
    byteOf (be32 b0 b1 b2 b3) 2 = b2 ∧ byteOf (be32 b0 b1 b2 b3) 3 = b3 := by
  have h0 := b0.isLt
  have h1 := b1.isLt
  have h2 := b2.isLt
  have h3 := b3.isLt
  simp only [← BitVec.toNat_inj, byteOf_toNat, be32_toNat]
  omega

/-- `BE32` puts a word together again from its four bytes. -/
theorem be32_byteOf (w : Word) : be32 (byteOf w 0) (byteOf w 1) (byteOf w 2) (byteOf w 3) = w := by
  have hw := w.isLt
  simp only [← BitVec.toNat_inj, be32_toNat, byteOf_toNat]
  omega

/-- Settles O45: `BE32` as a number, `BYTE_i` as its inverse both ways, and the bytes as slices. -/
theorem bigEndianPacking : Obligations.BigEndianPacking := by
  unfold Obligations.BigEndianPacking
  exact ⟨fun b0 b1 b2 b3 => ⟨be32_toNat b0 b1 b2 b3, byteOf_be32 b0 b1 b2 b3⟩, be32_byteOf,
    fun w i _ => byteOf_toNat w i, fun v i _ => be64Byte_toNat v i⟩

end Sys2Proof.Machine
end

section
/-! PROOFS. The fault code and the FAULT word (10_state R28): each move keeps both as they are, enters FAULT, or is
reset. -/

namespace Sys2Proof.Machine

/-! ## Words other than FAULT -/

theorem uword_ne_seqFault {o : BitVec 4} (ho : o ≠ 11) (t : Index) : uword o t ≠ seqFault :=
  fun h => ho (uword_inj.mp h).1

theorem afterLdw_ne_seqFault (t : Index) : afterLdw t ≠ seqFault := by
  unfold afterLdw
  split <;> exact uword_ne_seqFault (by decide) _

theorem afterExpw_ne_seqFault (t : Index) : afterExpw t ≠ seqFault := by
  unfold afterExpw
  split <;> exact uword_ne_seqFault (by decide) _

theorem afterRound_ne_seqFault (t : Index) : afterRound t ≠ seqFault := by
  unfold afterRound
  split <;> exact uword_ne_seqFault (by decide) _

theorem afterNext_ne_seqFault (blk nblk : Quad) : afterNext blk nblk ≠ seqFault := by
  rcases afterNext_cases blk nblk with h | h <;> rw [h] <;> exact uword_ne_seqFault (by decide) _

/-! ## What a move does to `ERR` and to standing in FAULT -/

/-- From `s` to `t` neither `ERR` nor whether `SEQ` is FAULT changes. -/
def KeepsFault (s t : State) : Prop := t.err = s.err ∧ (t.seq = seqFault ↔ s.seq = seqFault)

/-- The state after fault entry (R164): a code in `ERR` and FAULT in `SEQ`. -/
def FaultEntered (t : State) : Prop := t.err ≠ 0 ∧ t.seq = seqFault

theorem KeepsFault.of_ne_seqFault {s t : State} (he : t.err = s.err) (hs : s.seq ≠ seqFault)
    (ht : t.seq ≠ seqFault) : KeepsFault s t :=
  ⟨he, iff_of_false ht hs⟩

/-- An instruction whose word has an opcode other than FAULT's, and which goes on to such a word. -/
theorem KeepsFault.of_uword {s t : State} {o : BitVec 4} {u : Index} (he : t.err = s.err) (hs : s.seq = uword o u)
    (ho : o ≠ 11) (ht : t.seq ≠ seqFault) : KeepsFault s t :=
  .of_ne_seqFault he (hs ▸ uword_ne_seqFault ho u) ht

theorem KeepsFault.takeMove (s : State) : KeepsFault s (takeMove s) := ⟨rfl, .rfl⟩

theorem faultEntered_faultEntry {f : FaultCode} (hf : codeOf f ≠ 0) (s : State) : FaultEntered (faultEntry f s) :=
  ⟨hf, rfl⟩

theorem EngineStepTo.keepsFault_or_faultEntered {s t : State} (h : EngineStepTo s t) :
    KeepsFault s t ∨ FaultEntered t := by
  cases h with
  | standing _ => exact .inl ⟨rfl, .rfl⟩
  | padTooLong _ _ => exact .inr (faultEntered_faultEntry (by decide) s)
  | padTooBig _ _ _ => exact .inr (faultEntered_faultEntry (by decide) s)
  | reserved _ => exact .inr (faultEntered_faultEntry (by decide) s)
  | pad _ hs _ _ _ => exact .inl (.of_uword rfl hs (by decide) (uword_ne_seqFault (by decide) _))
  | hinit hs => exact .inl (.of_uword rfl hs (by decide) (uword_ne_seqFault (by decide) _))
  | ldw n _ hs _ _ => exact .inl (.of_uword rfl hs (by decide) (afterLdw_ne_seqFault n))
  | expw n hs _ => exact .inl (.of_uword rfl hs (by decide) (afterExpw_ne_seqFault n))
  | rinit hs => exact .inl (.of_uword rfl hs (by decide) (uword_ne_seqFault (by decide) _))
  | round n hs => exact .inl (.of_uword rfl hs (by decide) (afterRound_ne_seqFault n))
  | ffwd hs => exact .inl (.of_uword rfl hs (by decide) (uword_ne_seqFault (by decide) _))
  | next hs => exact .inl (.of_uword rfl hs (by decide) (afterNext_ne_seqFault _ _))
  | asm hs => exact .inl (.of_uword rfl hs (by decide) (uword_ne_seqFault (by decide) _))

/-- What any step does to `ERR` and to standing in FAULT (R28, R165). -/
theorem StepTo.keepsFault_or_reset_or_faultEntered {s t : State} (h : StepTo s t) :
    KeepsFault s t ∨ (nextMove s = .rst ∧ t.err = 0 ∧ t.seq ≠ seqFault) ∨
      (nextMove s = .engine ∧ FaultEntered t) := by
  cases h with
  | engine hm ht => exact ht.keepsFault_or_faultEntered.imp id fun hf => .inr ⟨hm, hf⟩
  | start _ _ hs =>
    have houtside : s.seq ≠ seqFault := by
      rcases hs with hs | hs <;> rw [hs] <;> exact uword_ne_seqFault (by decide) _
    exact .inl (.of_ne_seqFault rfl houtside (uword_ne_seqFault (by decide) _))
  | ignored _ _ => exact .inl (.takeMove s)
  | rst hm => exact .inr (.inl ⟨hm, rfl, uword_ne_seqFault (by decide) _⟩)
  | putMsg _ _ _ _ => exact .inl ⟨rfl, .rfl⟩
  | read _ => exact .inl (.takeMove s)

/-- Settles O30: a step keeps `ERR` and FAULT together, resets both, or enters FAULT with a code. -/
theorem errNonzeroExactlyInFault : Obligations.ErrNonzeroExactlyInFault := by
  unfold Obligations.ErrNonzeroExactlyInFault
  rw [← seqFault_eq]
  refine ⟨by decide, fun s t h => ?_⟩
  rcases (step_eq_next h).keepsFault_or_reset_or_faultEntered with
    ⟨herr, hseq⟩ | ⟨hm, herr, hseq⟩ | ⟨hm, herr, hseq⟩
  · exact ⟨fun hs => by rw [herr, hseq]; exact hs, fun hne => absurd herr hne⟩
  · exact ⟨fun _ => iff_of_false (not_not.mpr herr) hseq, fun _ => .inl ⟨hm, herr⟩⟩
  · exact ⟨fun _ => iff_of_true herr hseq, fun _ => .inr ⟨hm, herr, hseq⟩⟩

end Sys2Proof.Machine
end

section
/-! PROOFS. The opcode map and its reserved words (30_encoding R86, R90, R163). -/

namespace Sys2Proof

/-! ## The fields of a micro-operation word as numbers (R85) -/

/-- A word is `opc · 64 + t`, of its own two fields. -/
theorem toNat_eq_fields (w : UWord) : w.toNat = (opcOf w).toNat * 64 + (indexOf w).toNat := by
  rw [← uword_toNat, uword_fields]

theorem opcOf_toNat (w : UWord) : (opcOf w).toNat = w.toNat / 64 := by
  have hword := toNat_eq_fields w
  have hindex := (indexOf w).isLt
  omega

theorem indexOf_toNat (w : UWord) : (indexOf w).toNat = w.toNat % 64 := by
  have hword := toNat_eq_fields w
  have hindex := (indexOf w).isLt
  omega

/-! ## The opcode map (R86) -/

theorem decode_uop (w : UWord) : decode (.uop w) = decodeFields (opcOf w).toNat (indexOf w) := rfl

/-- The index with which an instruction decodes is the low field of its word. -/
theorem eq_indexOf_iff {w : UWord} {u : Index} : u = indexOf w ↔ u.toNat = w.toNat % 64 := by
  rw [← BitVec.toNat_inj, indexOf_toNat]

/-! ## Which fields decode at all (R90) -/

theorem withoutIndex_isOk_iff (t : Index) (j : Instr) : (∃ i, withoutIndex t j = .ok i) ↔ t.toNat = 0 := by
  unfold withoutIndex
  split <;> simp_all

theorem withIndex_isOk_iff (j : Instr) : (∃ i, withIndex j = .ok i) ↔ j.wellFormed = true := by
  unfold withIndex
  split <;> simp_all

theorem decodeFields_isOk_iff (o : Nat) (t : Index) :
    (∃ i, decodeFields o t = .ok i) ↔
      o < 12 ∧ (o = 3 → t.toNat < 16) ∧ (o = 4 → 16 ≤ t.toNat) ∧ (o ≠ 3 → o ≠ 4 → o ≠ 6 → t.toNat = 0) := by
  unfold decodeFields
  split
  case h_13 =>
    simp only [imp_false] at *
    have hnone : ¬ o < 12 := by omega
    simp [hnone]
  all_goals simp [withoutIndex_isOk_iff, withIndex_isOk_iff, Instr.wellFormed]

end Sys2Proof

namespace Sys2Proof.Machine

theorem legalWord_iff_decodes (w : UWord) : legalWord w = true ↔ ∃ i, decode (.uop w) = .ok i := by
  simp only [legalWord, decode]
  cases decodeUop w <;> simp

theorem legalWord_uword_iff (o : BitVec 4) (t : Index) :
    legalWord (uword o t) = true ↔
      o.toNat < 12 ∧ (o.toNat = 3 → t.toNat < 16) ∧ (o.toNat = 4 → 16 ≤ t.toNat) ∧
      (o.toNat ≠ 3 → o.toNat ≠ 4 → o.toNat ≠ 6 → t.toNat = 0) := by
  rw [legalWord_iff_decodes, decode_uop, opcOf_uword, indexOf_uword, decodeFields_isOk_iff]

/-- Index 0 is legal with every opcode of the map but EXPW's. -/
theorem legalWord_uword_zero {o : BitVec 4} (h : o.toNat < 12 ∧ o.toNat ≠ 4) : legalWord (uword o 0) = true :=
  (legalWord_uword_iff o 0).mpr (by simp [h])

/-- The reserved words: no opcode, or an index out of the range of its opcode (R90). -/
theorem legalWord_eq_false_iff (w : UWord) :
    legalWord w = false ↔
      12 ≤ w.toNat / 64 ∨ (w.toNat / 64 = 3 ∧ 16 ≤ w.toNat % 64) ∨ (w.toNat / 64 = 4 ∧ w.toNat % 64 < 16) ∨
      (w.toNat / 64 ≠ 3 ∧ w.toNat / 64 ≠ 4 ∧ w.toNat / 64 ≠ 6 ∧ w.toNat % 64 ≠ 0) := by
  rw [← uword_fields w, ← Bool.not_eq_true, legalWord_uword_iff, uword_fields, opcOf_toNat, indexOf_toNat]
  omega

/-! ## The 137 legal words (R86) -/

/-- A count over `m · k` numbers, taken `k` at a time. -/
theorem countP_range_mul (p : Nat → Bool) (k m : Nat) :
    (List.range (m * k)).countP p =
      ((List.range m).map fun o => (List.range k).countP fun t => p (o * k + t)).sum := by
  induction m with
  | zero => simp
  | succ m ih =>
    rw [Nat.succ_mul, List.range_add, List.countP_append, ih, List.range_succ]
    simp [List.countP_map, Function.comp_def]

/-- How many words of each opcode 0..15 are legal: 9 opcodes with one word, 16 LDW, 48 EXPW, 64 ROUND. -/
theorem legalWords_per_opcode :
    ((List.range 16).map fun o => (List.range 64).countP fun t => legalWord (BitVec.ofNat 10 (o * 64 + t))) =
      [1, 1, 1, 16, 48, 1, 64, 1, 1, 1, 1, 1, 0, 0, 0, 0] := by
  decide +kernel

theorem legalWords_count : (List.range 1024).countP (fun n => legalWord (BitVec.ofNat 10 n)) = 137 := by
  rw [show 1024 = 16 * 64 from rfl, countP_range_mul, legalWords_per_opcode]
  rfl

/-- Settles O3: `decodeFields_eq_ok` read on whole words, and the count of legal words opcode by opcode. -/
theorem decodeIsTheOpcodeMap : Obligations.DecodeIsTheOpcodeMap := by
  unfold Obligations.DecodeIsTheOpcodeMap
  refine ⟨fun w i => ?_, legalWords_count⟩
  rw [decode_uop, decodeFields_eq_ok]
  cases i with
  | start _ => exact Iff.rfl
  | ldw t | expw t | round t =>
    have ht := t.isLt
    simp only [opcOf_toNat, indexOf_toNat, eq_indexOf_iff]
    omega
  | _ =>
    simp only [opcOf_toNat, indexOf_toNat]
    omega

/-! ## A step on a reserved word, and the words that follow a step (R90, R163) -/

theorem engineStep_of_reserved {s : State} (h : legalWord s.seq = false) :
    engineStep s = .next (faultEntry .illegalUop s) := by
  have hnone : ∀ i, decode (.uop s.seq) ≠ .ok i := fun i hi =>
    Bool.false_ne_true (h.symm.trans ((legalWord_iff_decodes s.seq).mpr ⟨i, hi⟩))
  unfold engineStep
  split
  next i hi => exact absurd hi (hnone i)
  next => rfl

theorem legalWord_seqLdw {t : Index} (h : t.toNat < 16) : legalWord (seqLdw t) = true :=
  (legalWord_uword_iff 3 t).mpr (by simpa using h)

theorem legalWord_seqExpw {t : Index} (h : 16 ≤ t.toNat) : legalWord (seqExpw t) = true :=
  (legalWord_uword_iff 4 t).mpr (by simpa using h)

theorem legalWord_seqRound (t : Index) : legalWord (seqRound t) = true :=
  (legalWord_uword_iff 6 t).mpr (by simp)

/-- Below the top index the successor's index is the next number: the 6-bit sum does not wrap. -/
theorem index_succ_toNat {t : Index} (h : t.toNat < 63) : (t + 1).toNat = t.toNat + 1 := by
  rw [BitVec.toNat_add]
  exact Nat.mod_eq_of_lt (by simpa using Nat.succ_lt_succ h)

theorem legalWord_afterLdw (t : Index) : legalWord (afterLdw t) = true := by
  unfold afterLdw
  split
  next h => exact legalWord_seqLdw (by rw [index_succ_toNat (by omega)]; omega)
  next => decide

theorem legalWord_afterExpw {t : Index} (ht : 16 ≤ t.toNat) : legalWord (afterExpw t) = true := by
  unfold afterExpw
  split
  next h => exact legalWord_seqExpw (by rw [index_succ_toNat h]; omega)
  next => decide

theorem legalWord_afterRound (t : Index) : legalWord (afterRound t) = true := by
  unfold afterRound
  split
  next => exact legalWord_seqRound _
  next => decide

theorem legalWord_afterNext (blk nblk : Quad) : legalWord (afterNext blk nblk) = true := by
  rcases afterNext_cases blk nblk with h | h <;> rw [h] <;> exact legalWord_uword_zero (by decide)

/-- Every successor of the sequencer table is a legal word, from a reserved word as well. -/
theorem EngineStepTo.legalWord_seq {s t : State} (h : EngineStepTo s t) : legalWord t.seq = true := by
  cases h with
  | standing h => rcases h with h | h | h <;> rw [h] <;> exact legalWord_uword_zero (by decide)
  | padTooLong _ _ | padTooBig _ _ _ | pad _ _ _ _ _ | hinit _ | rinit _ | ffwd _ | asm _ | reserved _ =>
    exact legalWord_uword_zero (by decide)
  | ldw n _ _ _ _ => exact legalWord_afterLdw n
  | expw n _ hn => exact legalWord_afterExpw hn
  | round n _ => exact legalWord_afterRound n
  | next _ => exact legalWord_afterNext _ _

theorem StepTo.legalWord_seq {s t : State} (h : StepTo s t) (hs : legalWord s.seq = true) : legalWord t.seq = true := by
  cases h with
  | engine _ ht => exact ht.legalWord_seq
  | start _ _ _ | rst _ => exact legalWord_uword_zero (by decide)
  | ignored _ _ | putMsg _ _ _ _ | read _ => exact hs

/-- Settles O25: the reserved words are those outside the opcode map, a step on one is fault entry, and each step leads
to a legal word. -/
theorem reservedWordsRaiseIllegalUop : Obligations.ReservedWordsRaiseIllegalUop := by
  unfold Obligations.ReservedWordsRaiseIllegalUop
  intro s
  refine ⟨legalWord_iff_decodes s.seq, legalWord_eq_false_iff s.seq, engineStep_of_reserved,
    legalWord_uword_zero (by decide), fun u hu => ⟨(step_eq_next hu).legalWord_seq, fun hm => ?_⟩⟩
  rw [step, hm] at hu
  exact (engineStep_eq_next hu).legalWord_seq

end Sys2Proof.Machine
end

section
/-! PROOFS. The status word and the two outputs of the Host (10_state R29, 30_encoding R89, 44_orchestration R150). -/

namespace Sys2Proof.Machine

/-! ## The flags by the word in `SEQ` (R29) -/

theorem busy_eq_true_iff (s : State) :
    busy s = true ↔ s.seq ≠ seqWait ∧ s.seq ≠ seqFin ∧ s.seq ≠ seqFault := by
  simp [busy, idle, done, faulted, and_assoc]

theorem flags_of_wait {s : State} (h : s.seq = seqWait) : done s = false ∧ busy s = false := by
  rw [busy, idle, done, faulted, h]
  decide

theorem flags_of_fin {s : State} (h : s.seq = seqFin) : done s = true ∧ busy s = false := by
  rw [busy, idle, done, faulted, h]
  decide

theorem flags_of_fault {s : State} (h : s.seq = seqFault) : done s = false ∧ busy s = false := by
  rw [busy, idle, done, faulted, h]
  decide

theorem done_of_busy {s : State} (h : busy s = true) : done s = false := by
  simpa [done] using ((busy_eq_true_iff s).mp h).2.1

/-! ## The status word (R89) -/

theorem statusWord_fields (s : State) :
    (statusWord s).extractLsb' 2 2 = s.err ∧ (statusWord s).getLsbD 1 = done s ∧ (statusWord s).getLsbD 0 = busy s := by
  have hall : ∀ (e : BitVec 2) (d b : Bool),
      (e ++ BitVec.ofBool d ++ BitVec.ofBool b).extractLsb' 2 2 = e ∧
      (e ++ BitVec.ofBool d ++ BitVec.ofBool b).getLsbD 1 = d ∧
      (e ++ BitVec.ofBool d ++ BitVec.ofBool b).getLsbD 0 = b := by decide
  exact hall s.err (done s) (busy s)

theorem statusWord_eq {s : State} {e : BitVec 2} {d b : Bool} (he : s.err = e) (hf : done s = d ∧ busy s = b) :
    statusWord s = e ++ BitVec.ofBool d ++ BitVec.ofBool b := by
  rw [statusWord, he, hf.1, hf.2]

/-- The three codes of R160 are all there are beside 0. -/
theorem err_cases {e : BitVec 2} (h : e ≠ 0) : e = 1 ∨ e = 2 ∨ e = 3 := by
  revert e; decide

theorem readDigest_isOk_iff (n : BitVec 5) (s : State) : (∃ b, readDigest n s = .ok b) ↔ done s = true := by
  unfold readDigest
  split <;> simp_all

/-- Settles O34: the fields of STATUS for all values of `ERR` and the flags, then the value by the word in `SEQ`. -/
theorem statusWordValues : Obligations.StatusWordValues := by
  unfold Obligations.StatusWordValues
  rw [← seqWait_eq, ← seqFin_eq, ← seqFault_eq]
  intro s
  obtain ⟨herr, hdone, hbusy⟩ := statusWord_fields s
  refine ⟨herr, hdone, hbusy, fun hinv => ?_, fun n => readDigest_isOk_iff n s⟩
  have hzero : s.seq ≠ seqFault → s.err = 0 := fun h => not_not.mp (mt hinv.mp h)
  refine ⟨fun h => ?_, fun h => ?_, fun h => ?_, fun h => ?_, ?_⟩
  · exact statusWord_eq (hzero (h ▸ by decide)) (flags_of_wait h)
  · exact statusWord_eq (hzero (h ▸ by decide)) (flags_of_fin h)
  · rcases err_cases (hinv.mpr h) with he | he | he
    · exact .inl ⟨he, statusWord_eq he (flags_of_fault h)⟩
    · exact .inr (.inl ⟨he, statusWord_eq he (flags_of_fault h)⟩)
    · exact .inr (.inr ⟨he, statusWord_eq he (flags_of_fault h)⟩)
  · exact statusWord_eq (hzero ((busy_eq_true_iff s).mp h).2.2) ⟨done_of_busy h, h⟩
  · rw [faulted, beq_iff_eq]
    exact hinv.symm

end Sys2Proof.Machine
end

section
/-! PROOFS. The padded message (40_padding R82, R83): the layout PAD writes is `PadByte`, byte by byte. -/

namespace Sys2Proof.Machine

/-! ## The arithmetic of `k` and `L` (R83) -/

theorem zeroCount_le (len : Nat) : zeroCount len ≤ 63 := by
  unfold zeroCount
  omega

theorem paddedLength_mod (len : Nat) : paddedLength len % 64 = 0 := by
  unfold paddedLength zeroCount
  omega

theorem paddedLength_eq_blocks (len : Nat) : paddedLength len = 64 * blockCount len := by
  have hmod := paddedLength_mod len
  unfold blockCount
  omega

theorem one_le_blockCount (len : Nat) : 1 ≤ blockCount len := by
  have hblocks := paddedLength_eq_blocks len
  unfold paddedLength at hblocks
  omega

/-- Any zero count that fills the last block differs from `k` by whole blocks, and `k` is below one block. -/
theorem zeroCount_least {len z : Nat} (h : (len + 1 + z + 8) % 64 = 0) : zeroCount len ≤ z := by
  have hmod := paddedLength_mod len
  have hle := zeroCount_le len
  unfold paddedLength at hmod
  omega

/-! ## `PadByte` by region (R83) -/

theorem padByte_message {m : List Byte} {n : Nat} (h : n < m.length) : padByte m n = m[n] := by
  simp [padByte, h]

theorem padByte_marker (m : List Byte) : padByte m m.length = 0x80 := by
  simp [padByte]

theorem padByte_zero {m : List Byte} {n : Nat} (h1 : m.length < n) (h2 : n ≤ m.length + zeroCount m.length) :
    padByte m n = 0x00 := by
  rw [padByte, if_neg (by omega), if_neg (by omega), if_pos h2]

theorem padByte_lengthField {m : List Byte} {n : Nat} (h : m.length + zeroCount m.length < n) :
    padByte m n = be64Byte (BitVec.ofNat 64 (8 * m.length)) (n - (m.length + 1 + zeroCount m.length)) := by
  rw [padByte, if_neg (by omega), if_neg (by omega), if_neg (by omega)]

theorem padMessage_length (m : List Byte) : (padMessage m).length = paddedLength m.length := by
  simp [padMessage]

theorem padMessage_getElem? {m : List Byte} {n : Nat} (h : n < paddedLength m.length) :
    (padMessage m)[n]? = some (padByte m n) := by
  simp [padMessage, h]

theorem lengthField_getElem? {len i : Nat} (h : i < 8) :
    (lengthField len)[i]? = some (be64Byte (BitVec.ofNat 64 (8 * len)) i) := by
  simp [lengthField, h]

/-- The four parts of the layout are the four regions of `PadByte`. -/
theorem paddedBytes_getElem? {m : List Byte} {n : Nat} (h : n < paddedLength m.length) :
    (paddedBytes m)[n]? = some (padByte m n) := by
  have hmark : (m ++ [(0x80 : Byte)]).length = m.length + 1 := by simp
  have hzeros : (m ++ [0x80] ++ List.replicate (zeroCount m.length) (0 : Byte)).length =
      m.length + 1 + zeroCount m.length := by
    rw [List.length_append, hmark, List.length_replicate]
  unfold paddedLength at h
  unfold paddedBytes
  by_cases hlast : m.length + zeroCount m.length < n
  · rw [padByte_lengthField hlast, List.getElem?_append_right (by omega), hzeros, lengthField_getElem? (by omega)]
  · rw [List.getElem?_append_left (by omega)]
    rcases Nat.lt_trichotomy n m.length with hn | rfl | hn
    · rw [padByte_message hn, List.append_assoc, List.getElem?_append_left hn, List.getElem?_eq_getElem hn]
    · simp [padByte_marker]
    · rw [padByte_zero hn (by omega), List.getElem?_append_right (by omega), hmark,
        List.getElem?_replicate_of_lt (by omega)]

theorem paddedBytes_eq_padMessage (m : List Byte) : paddedBytes m = padMessage m := by
  apply List.ext_getElem?
  intro n
  by_cases h : n < paddedLength m.length
  · rw [paddedBytes_getElem? h, padMessage_getElem? h]
  · rw [List.getElem?_eq_none (by simpa using h), List.getElem?_eq_none (by simpa [padMessage_length] using h)]

/-- Settles O42: the layout byte by byte, the arithmetic of its length, and `PadByte` in each of its regions. -/
theorem paddedLayoutIsPadByte : Obligations.PaddedLayoutIsPadByte := by
  unfold Obligations.PaddedLayoutIsPadByte
  intro m
  rw [padMessage_length]
  refine ⟨paddedBytes_eq_padMessage m, rfl, paddedLength_mod _, one_le_blockCount _, paddedLength_eq_blocks _,
    fun z hz => zeroCount_least hz, fun n hn => ?_⟩
  rw [padMessage_getElem? hn]
  refine ⟨fun h => ?_, fun h => ?_, fun h1 h2 => ?_, fun h => ?_⟩
  · rw [padByte_message h, List.getElem?_eq_getElem h]
  · rw [h, padByte_marker]
  · rw [padByte_zero h1 h2]
  · rw [padByte_lengthField h]

end Sys2Proof.Machine
end

section
/-! PROOFS. PAD (40_padding R100, R101): its two tests, its effect byte by byte, and its arithmetic. -/

namespace Sys2Proof.Machine

/-! ## The arithmetic of PAD (R101) -/

theorem zeroCount_eq (len : Nat) : zeroCount len = ((55 - (len : Int)) % 64).toNat := rfl

theorem paddedLength_eq (len : Nat) : paddedLength len = len + 1 + zeroCount len + 8 := rfl

theorem blockCount_eq (len : Nat) : blockCount len = (len + 8) / 64 + 1 := by
  have hle := zeroCount_le len
  have hlength := paddedLength_eq len
  have hblocks := paddedLength_eq_blocks len
  omega

/-- `L` exceeds `LEN + 9` by `k`, less than one block, so no smaller multiple of 64 is large enough. -/
theorem paddedLength_least {len x : Nat} (hmod : x % 64 = 0) (hx : len + 9 ≤ x) : paddedLength len ≤ x := by
  have hle := zeroCount_le len
  have hlength := paddedLength_eq len
  have hblocks := paddedLength_eq_blocks len
  omega

theorem zeroCount_longest : zeroCount (2 ^ 61 - 1) = 56 := by
  decide

/-- The longest message attains the bound on `L`. -/
theorem paddedLength_longest : paddedLength (2 ^ 61 - 1) = 2 ^ 61 + 64 := by
  rw [paddedLength_eq, zeroCount_longest]
  norm_num

/-- Settles O41: the bounds and the closed forms follow from `L = 64·N` and `N = floor((LEN + 8) / 64) + 1`. -/
theorem padArithmetic : Obligations.PadArithmetic := by
  unfold Obligations.PadArithmetic
  intro len hlen
  have hlength := paddedLength_eq len
  have hblocks := paddedLength_eq_blocks len
  have hcount := blockCount_eq len
  refine ⟨zeroCount_le len, hlength, ?_, ?_, paddedLength_longest, zeroCount_longest, rfl, one_le_blockCount len, ?_,
    paddedLength_mod len, ?_, ?_, fun x => paddedLength_least, hcount, hblocks, ?_, fun n => ?_⟩
  all_goals omega

/-! ## The bytes PAD writes (R82, R83) -/

/-- Below 2^61 the bit length fits in 64 bits, and its bytes are those of the integer `8·LEN` (R82). -/
theorem be64Byte_bitLength {len : Nat} (h : len < 2 ^ 61) (i : Nat) :
    be64Byte (BitVec.ofNat 64 (8 * len)) i = BitVec.ofNat 8 (8 * len / 2 ^ (56 - 8 * i)) := by
  apply BitVec.eq_of_toNat_eq
  rw [be64Byte_toNat, BitVec.toNat_ofNat, BitVec.toNat_ofNat, Nat.mod_eq_of_lt (a := 8 * len) (by omega)]

theorem padWith_pm_read_below {m : List Byte} (s : State) {n : Nat} (h : n < paddedLength m.length) :
    (padWith m s).pm.read n = some (padByte m n) := by
  rw [padWith_pm, Memory.read_writeBytes, if_pos (by simpa using h), Nat.sub_zero, paddedBytes_getElem? h]

theorem padWith_pm_read_above {m : List Byte} (s : State) {n : Nat} (h : paddedLength m.length ≤ n) :
    (padWith m s).pm.read n = s.pm.read n := by
  rw [padWith_pm, Memory.read_writeBytes, if_neg (by simpa using h)]

/-! ## Which case of PAD a state is in (R100) -/

theorem exec_pad (s : State) : exec .pad s = execPad s := rfl

/-- The first test, whatever `PM_CAP` is. -/
theorem execPad_of_tooLong {s : State} (h : 2 ^ 61 ≤ s.len.toNat) :
    execPad s = .next (faultEntry .lengthOverflow s) := by
  rcases execPad_cases s with ⟨_, heq⟩ | ⟨hlt, _⟩ | ⟨hlt, _⟩
  · exact heq
  all_goals omega

/-- The second test, where the first does not raise. -/
theorem execPad_of_tooBig {s : State} (hlen : s.len.toNat < 2 ^ 61) (h : s.cfg.pmCap < paddedLength s.len.toNat) :
    execPad s = .next (faultEntry .capacityFault s) := by
  rcases execPad_cases s with ⟨hge, _⟩ | ⟨_, _, heq⟩ | ⟨_, hfits, _⟩
  · omega
  · exact heq
  · omega

/-- With every message byte in `MSG`, PAD reads the whole message `m` and completes. -/
theorem execPad_of_fits {s : State} (hlen : s.len.toNat < 2 ^ 61) (h : paddedLength s.len.toNat ≤ s.cfg.pmCap)
    (hmsg : ∀ n < s.len.toNat, (s.msg.read n).isSome = true) :
    ∃ m, m.length = s.len.toNat ∧ (∀ n < s.len.toNat, s.msg.read n = m[n]?) ∧
      execPad s = .next (padWith m s) := by
  rcases execPad_cases s with ⟨hge, _⟩ | ⟨_, hbig, _⟩ | ⟨_, _, ⟨a, hread, _⟩ | ⟨m, hread, heq⟩⟩
  · omega
  · omega
  · obtain ⟨_, ha, hnone, _⟩ := Memory.readBytes_eq_error.mp hread
    have hsome := hmsg a (by omega)
    simp [hnone] at hsome
  · obtain ⟨hl, hbytes⟩ := Memory.readBytes_eq_ok.mp hread
    exact ⟨m, hl, fun n hn => by rw [← hbytes n hn, Nat.zero_add], heq⟩

/-- Settles O9: the two fault entries in order; otherwise each region of `PM` is read off `PadByte`. -/
theorem padBuildsPaddedMessage : Obligations.PadBuildsPaddedMessage := by
  unfold Obligations.PadBuildsPaddedMessage
  intro s
  simp only [← zeroCount_eq, ← paddedLength_eq, exec_pad]
  refine ⟨rfl, execPad_of_tooLong, execPad_of_tooBig, fun hlen hfits hmsg => ?_⟩
  obtain ⟨m, hm, hbytes, heq⟩ := execPad_of_fits hlen hfits hmsg
  refine ⟨padWith m s, heq, ?_⟩
  rw [← hm] at hlen hbytes ⊢
  have hlength := paddedLength_eq m.length
  refine ⟨fun n hn => ?_, ?_, fun n hlow hhigh => ?_, fun i hi => ?_, fun n => padWith_pm_read_above s, rfl⟩
  · rw [padWith_pm_read_below s (by omega), padByte_message hn, hbytes n hn, List.getElem?_eq_getElem hn]
  · rw [padWith_pm_read_below s (by omega), padByte_marker]
  · rw [padWith_pm_read_below s (by omega), padByte_zero hlow hhigh]
  · rw [padWith_pm_read_below s (by omega), padByte_lengthField (by omega), Nat.add_sub_cancel_left,
      be64Byte_bitLength hlen]

end Sys2Proof.Machine
end

section
/-! PROOFS. LDW and EXPW (41_schedule R110, R111): the words they decode from, the values they write, the successors. -/

namespace Sys2Proof

/-! ## The words of LDW and EXPW (R86) -/

theorem decode_seqLdw {t : Index} (h : t.toNat < 16) : decode (.uop (seqLdw t)) = .ok (.ldw t) := by
  rw [decode_uop, seqLdw, opcOf_uword, indexOf_uword, decodeFields_eq_ok]
  exact ⟨rfl, rfl, h⟩

theorem decode_seqExpw {t : Index} (h : 16 ≤ t.toNat) : decode (.uop (seqExpw t)) = .ok (.expw t) := by
  rw [decode_uop, seqExpw, opcOf_uword, indexOf_uword, decodeFields_eq_ok]
  exact ⟨rfl, rfl, h⟩

theorem ofNat_eq_seqLdw (t : Index) : BitVec.ofNat 10 (0x0C0 + t.toNat) = seqLdw t := by
  rw [← seqLdw_toNat, BitVec.ofNat_toNat, BitVec.setWidth_eq]

theorem ofNat_eq_seqExpw (t : Index) : BitVec.ofNat 10 (0x100 + t.toNat) = seqExpw t := by
  rw [← seqExpw_toNat, BitVec.ofNat_toNat, BitVec.setWidth_eq]

end Sys2Proof

namespace Sys2Proof.Machine

/-! ## The successors (R110, R111, R146) -/

theorem afterLdw_eq (t : Index) :
    afterLdw t = if t.toNat < 15 then BitVec.ofNat 10 (0x0C0 + t.toNat + 1) else 0x110#10 := by
  apply BitVec.eq_of_toNat_eq
  rw [afterLdw_toNat]
  split
  · rw [BitVec.toNat_ofNat]
    omega
  · rfl

theorem afterExpw_eq (t : Index) :
    afterExpw t = if t.toNat < 63 then BitVec.ofNat 10 (0x100 + t.toNat + 1) else 0x140#10 := by
  apply BitVec.eq_of_toNat_eq
  rw [afterExpw_toNat]
  split
  · rw [BitVec.toNat_ofNat]
    omega
  · rfl

/-! ## The values written (R110, R111) -/

theorem be32_eq_ofNat (b0 b1 b2 b3 : Byte) :
    be32 b0 b1 b2 b3 =
      BitVec.ofNat 32 (b0.toNat * 2 ^ 24 + b1.toNat * 2 ^ 16 + b2.toNat * 2 ^ 8 + b3.toNat) := by
  rw [← be32_toNat, BitVec.ofNat_toNat, BitVec.setWidth_eq]

/-- With the top one of the four addresses inside `PM`, all four are. -/
theorem readPmWord_of_reads {s : State} {a : Nat} {b0 b1 b2 b3 : Byte} (hcap : a + 3 < s.cfg.pmCap)
    (h0 : s.pm.read a = some b0) (h1 : s.pm.read (a + 1) = some b1) (h2 : s.pm.read (a + 2) = some b2)
    (h3 : s.pm.read (a + 3) = some b3) : readPmWord s a = .ok (be32 b0 b1 b2 b3) :=
  readPmWord_eq_ok.mpr ⟨b0, b1, b2, b3, readPm_eq_ok.mpr ⟨by omega, h0⟩, readPm_eq_ok.mpr ⟨by omega, h1⟩,
    readPm_eq_ok.mpr ⟨by omega, h2⟩, readPm_eq_ok.mpr ⟨hcap, h3⟩, rfl⟩

/-- The four sources of EXPW by number: no index wraps from 16 on. -/
theorem expwValue_eq (s : State) {t : Index} (h : 16 ≤ t.toNat) :
    expwValue s t =
      expandWord s.w[t.toNat - 2]! s.w[t.toNat - 7]! s.w[t.toNat - 15]! s.w[t.toNat - 16]! := by
  have hsource : ∀ n ≤ 16, getW s (t - BitVec.ofNat 6 n) = s.w[t.toNat - n]! := fun n hn => by
    rw [getW_eq, index_sub_toNat hn h]
  rw [← hsource 2 (by decide), ← hsource 7 (by decide), ← hsource 15 (by decide), ← hsource 16 (by decide)]
  rfl

/-! ## The meaning where the word is legal -/

theorem exec_ldw_of_read {s : State} {t : Index} {v : Word} (h : t.toNat < 16)
    (hv : readPmWord s (ldwAddr s.blk t) = .ok v) :
    exec (.ldw t) s = .next { setW s t v with seq := afterLdw t } := by
  simp only [exec, execLdw, if_pos h, hv]

theorem exec_expw_of_le {s : State} {t : Index} (h : 16 ≤ t.toNat) :
    exec (.expw t) s = .next { setW s t (expwValue s t) with seq := afterExpw t } := by
  simp only [exec, execExpw, if_pos h]

/-- Settles O14: the word decodes by the opcode map, and the four bytes answer with the word that LDW writes. -/
theorem ldwLoadsBigEndianWord : Obligations.LdwLoadsBigEndianWord := by
  unfold Obligations.LdwLoadsBigEndianWord
  intro s t b0 b1 b2 b3 a ht
  refine ⟨by rw [ofNat_eq_seqLdw, decode_seqLdw ht], fun hcap h0 h1 h2 h3 => ?_⟩
  have hread : readPmWord s (ldwAddr s.blk t) = .ok (be32 b0 b1 b2 b3) := readPmWord_of_reads hcap h0 h1 h2 h3
  rw [exec_ldw_of_read ht hread, setW_eq, afterLdw_eq, be32_eq_ofNat]

/-- Settles O16: the word decodes by the opcode map, and the recurrence is written out over the four source words. -/
theorem expwComputesScheduleWord : Obligations.ExpwComputesScheduleWord := by
  unfold Obligations.ExpwComputesScheduleWord
  intro s t w2 w7 w15 w16 ht
  refine ⟨by rw [ofNat_eq_seqExpw, decode_seqExpw ht], ?_⟩
  rw [exec_expw_of_le ht, setW_eq, afterExpw_eq, expwValue_eq s ht, expandWord, ssig0_eq, ssig1_eq]

end Sys2Proof.Machine
end

section
/-! PROOFS. The schedule of a block (41_schedule R112): sixty-four steps from LDW 0 leave `Sched(B)` in `W`. -/

namespace Sys2Proof.Machine

/-! ## Runs of the Engine -/

/-- With no move waiting, a step runs the instruction in `SEQ` (R16, R24). -/
theorem step_eq_exec {s : State} {i : Instr} (hin : s.inputs = []) (hd : decode (.uop s.seq) = .ok i) :
    step s = exec i s := by
  obtain ⟨hmove, htake⟩ := step_of_inputs_nil hin
  simp only [step, hmove, htake, performMove, engineStep, hd]

theorem run_succ_of_step {s t : State} (h : step s = .next t) (k : Nat) :
    Host.Core.run core (k + 1) s = Host.Core.run core k t := by
  have hcore : core.step s = .next t := h
  simp only [Host.Core.run, hcore]

/-- An indexed invariant that every step below `m` carries one further is carried `k` further by a run of `k` steps. -/
theorem run_of_step {P : Nat → State → Prop} {m : Nat}
    (hstep : ∀ n < m, ∀ s, P n s → ∃ t, step s = .next t ∧ P (n + 1) t) {n k : Nat} (hk : n + k ≤ m) {s : State}
    (hs : P n s) : ∃ t, Host.Core.run core k s = .next t ∧ P (n + k) t := by
  induction k generalizing n s with
  | zero => exact ⟨s, rfl, hs⟩
  | succ k ih =>
    obtain ⟨u, hu, hPu⟩ := hstep n (by omega) s hs
    obtain ⟨t, ht, hPt⟩ := ih (by omega) hPu
    refine ⟨t, by rw [run_succ_of_step hu, ht], ?_⟩
    rwa [Nat.add_right_comm] at hPt

/-! ## The words of the schedule's steps -/

/-- `SEQ` with the first `n` schedule words written, n = 0..64: LDW `n`, EXPW `n`, then RINIT (R112, R146). -/
def scheduleSeq (n : Nat) : UWord := BitVec.ofNat 10 ((if n < 16 then 0x0C0 else 0x100) + n)

theorem scheduleSeq_eq_seqLdw {t : Index} (h : t.toNat < 16) : scheduleSeq t.toNat = seqLdw t := by
  rw [scheduleSeq, if_pos h, ofNat_eq_seqLdw]

theorem scheduleSeq_eq_seqExpw {t : Index} (h : 16 ≤ t.toNat) : scheduleSeq t.toNat = seqExpw t := by
  rw [scheduleSeq, if_neg (by omega), ofNat_eq_seqExpw]

theorem scheduleSeq_zero : scheduleSeq 0 = 0x0C0#10 := rfl

theorem scheduleSeq_end : scheduleSeq 64 = 0x140#10 := rfl

theorem afterLdw_eq_scheduleSeq {t : Index} (h : t.toNat < 16) : afterLdw t = scheduleSeq (t.toNat + 1) := by
  rw [afterLdw_eq, scheduleSeq]
  by_cases hlast : t.toNat < 15
  · rw [if_pos hlast, if_pos (by omega), Nat.add_assoc]
  · rw [show t.toNat = 15 by omega]
    rfl

theorem afterExpw_eq_scheduleSeq {t : Index} (h : 16 ≤ t.toNat) : afterExpw t = scheduleSeq (t.toNat + 1) := by
  rw [afterExpw_eq, scheduleSeq, if_neg (by omega : ¬ t.toNat + 1 < 16), Nat.add_assoc]
  split
  · rfl
  · rw [show t.toNat = 63 by omega]

/-! ## The next schedule word -/

/-- The 64 bytes of block `BLK` of `PM` exist and are `blk` (R53). -/
structure HoldsBlock (s : State) (blk : List Byte) : Prop where
  length : blk.length = 64
  cap : 64 * s.blk.toNat + 64 ≤ s.cfg.pmCap
  bytes : ∀ n < 64, s.pm.read (64 * s.blk.toNat + n) = blk[n]?

theorem HoldsBlock.read {s : State} {blk : List Byte} (h : HoldsBlock s blk) {n : Nat} (hn : n < 64) :
    s.pm.read (64 * s.blk.toNat + n) = some (blk.getD n 0) := by
  have hlen : n < blk.length := h.length ▸ hn
  rw [h.bytes n hn, List.getD_eq_getElem _ _ hlen, List.getElem?_eq_getElem hlen]

theorem HoldsBlock.readPmWord_eq {s : State} {blk : List Byte} (h : HoldsBlock s blk) {t : Index} (ht : t.toNat < 16) :
    readPmWord s (ldwAddr s.blk t) = .ok (blockWord blk t.toNat) := by
  have hcap := h.cap
  rw [ldwAddr]
  apply readPmWord_of_reads (by omega)
  · exact h.read (by omega)
  all_goals
    rw [Nat.add_assoc]
    exact h.read (by omega)

/-- The first `n` words of `W`. -/
def wordsBelow (w : Vector Word 64) (n : Nat) : List Word := w.toList.take n

theorem wordsBelow_length (w : Vector Word 64) {n : Nat} (hn : n ≤ 64) : (wordsBelow w n).length = n := by
  simp [wordsBelow, hn]

theorem wordsBelow_getD (w : Vector Word 64) {n j : Nat} (hj : j < n) (hn : n ≤ 64) :
    (wordsBelow w n).getD j 0 = w[j]! := by
  have hj64 : j < 64 := by omega
  simp [wordsBelow, hj, hj64]

theorem wordsBelow_set (w : Vector Word 64) (t : Index) (v : Word) :
    wordsBelow (w.set t.toNat v t.isLt) (t.toNat + 1) = wordsBelow w t.toNat ++ [v] := by
  have ht : t.toNat < w.toList.length := by simpa using t.isLt
  rw [wordsBelow, wordsBelow, Vector.toList_set, List.take_add_one, List.take_set_of_le (Nat.le_refl _),
    List.getElem?_set_self ht]
  rfl

theorem scheduleNext_eq_blockWord (blk : List Byte) (w : Vector Word 64) {n : Nat} (hn : n < 16) :
    scheduleNext blk (wordsBelow w n) = blockWord blk n := by
  rw [scheduleNext, wordsBelow_length w (by omega), if_pos hn]

theorem scheduleNext_eq_expwValue (blk : List Byte) (s : State) {t : Index} (ht : 16 ≤ t.toNat) :
    scheduleNext blk (wordsBelow s.w t.toNat) = expwValue s t := by
  have hle : t.toNat ≤ 64 := t.isLt.le
  rw [scheduleNext, wordsBelow_length s.w hle, if_neg (by omega), expwValue_eq s ht,
    wordsBelow_getD s.w (by omega) hle, wordsBelow_getD s.w (by omega) hle, wordsBelow_getD s.w (by omega) hle,
    wordsBelow_getD s.w (by omega) hle]

/-! ## One step of the schedule, and all of them -/

/-- Both instructions of the schedule write the word that follows those already in `W` (R112). -/
theorem step_scheduleSeq {s : State} {blk : List Byte} (hblk : HoldsBlock s blk) (hin : s.inputs = []) {t : Index}
    (hseq : s.seq = scheduleSeq t.toNat) :
    step s = .next { setW s t (scheduleNext blk (wordsBelow s.w t.toNat)) with seq := scheduleSeq (t.toNat + 1) } := by
  by_cases ht : t.toNat < 16
  · have hdecode : decode (.uop s.seq) = .ok (.ldw t) := by rw [hseq, scheduleSeq_eq_seqLdw ht, decode_seqLdw ht]
    rw [step_eq_exec hin hdecode, exec_ldw_of_read ht (hblk.readPmWord_eq ht), afterLdw_eq_scheduleSeq ht,
      scheduleNext_eq_blockWord blk s.w ht]
  · have hge : 16 ≤ t.toNat := by omega
    have hdecode : decode (.uop s.seq) = .ok (.expw t) := by rw [hseq, scheduleSeq_eq_seqExpw hge, decode_seqExpw hge]
    rw [step_eq_exec hin hdecode, exec_expw_of_le hge, afterExpw_eq_scheduleSeq hge,
      scheduleNext_eq_expwValue blk s hge]

/-- `t` is `s` with the first `n` schedule words of `blk` written, and nothing else changed but `SEQ`. -/
structure ScheduledTo (s : State) (blk : List Byte) (n : Nat) (t : State) : Prop where
  words : wordsBelow t.w n = schedulePrefix blk n
  frame : t = { s with w := t.w, seq := scheduleSeq n }

theorem ScheduledTo.step_next {s t : State} {blk : List Byte} {n : Nat} (hblk : HoldsBlock s blk) (hin : s.inputs = [])
    (hn : n < 64) (h : ScheduledTo s blk n t) :
    ∃ u, step t = .next u ∧ ScheduledTo s blk (n + 1) u := by
  obtain ⟨i, rfl⟩ : ∃ i : Index, i.toNat = n := ⟨BitVec.ofNat 6 n, Nat.mod_eq_of_lt hn⟩
  obtain ⟨hwords, hframe⟩ := h
  have hblk' : HoldsBlock t blk := by
    rw [hframe]
    exact ⟨hblk.length, hblk.cap, hblk.bytes⟩
  have hin' : t.inputs = [] := by rw [hframe]; exact hin
  have hseq : t.seq = scheduleSeq i.toNat := by rw [hframe]
  refine ⟨_, step_scheduleSeq hblk' hin' hseq, ?_, ?_⟩
  · rw [setW_w, wordsBelow_set, hwords, schedulePrefix]
  · rw [hframe]
    rfl

/-- Settles O48: `ScheduledTo` holds of no words at LDW 0, and each of the 64 steps carries it one word further. -/
theorem schedComputesSchedule : Obligations.SchedComputesSchedule := by
  unfold Obligations.SchedComputesSchedule
  intro s blk hseq hin hlen hcap hbytes
  have hstart : ScheduledTo s blk 0 s := ⟨rfl, by rw [scheduleSeq_zero, ← hseq]⟩
  obtain ⟨t, hrun, hwords, hframe⟩ :=
    run_of_step (fun _ hn _ h => h.step_next ⟨hlen, hcap, hbytes⟩ hin hn) (Nat.le_refl (0 + 64)) hstart
  refine ⟨t, hrun, ?_, hframe⟩
  rw [schedule, ← hwords, wordsBelow, List.take_of_length_le (by simp)]

end Sys2Proof.Machine
end

section
/-! PROOFS. RINIT, ROUND and FFWD (42_compression R120 to R122): the words they decode from, what each writes, the
successors. -/

namespace Sys2Proof

/-! ## The words of RINIT, ROUND and FFWD (R86) -/

theorem decode_seqRinit : decode (.uop seqRinit) = .ok .rinit := rfl

theorem decode_seqRound (t : Index) : decode (.uop (seqRound t)) = .ok (.round t) := by
  rw [decode_uop, seqRound, opcOf_uword, indexOf_uword, decodeFields_eq_ok]
  exact ⟨rfl, rfl⟩

theorem decode_seqFfwd : decode (.uop seqFfwd) = .ok .ffwd := rfl

theorem ofNat_eq_seqRound (t : Index) : BitVec.ofNat 10 (0x180 + t.toNat) = seqRound t := by
  rw [← seqRound_toNat, BitVec.ofNat_toNat, BitVec.setWidth_eq]

end Sys2Proof

namespace Sys2Proof.Machine

/-- The word after ROUND `t` is the next number for every `t`: FFWD's word stands right after ROUND 63's. -/
theorem afterRound_eq_succ (t : Index) : afterRound t = BitVec.ofNat 10 (0x180 + t.toNat + 1) := by
  have ht := t.isLt
  apply BitVec.eq_of_toNat_eq
  rw [afterRound_toNat, BitVec.toNat_ofNat]
  split <;> omega

theorem afterRound_eq (t : Index) :
    afterRound t = if t.toNat < 63 then BitVec.ofNat 10 (0x180 + t.toNat + 1) else 0x1C0#10 := by
  rw [afterRound_eq_succ]
  split
  · rfl
  · rw [show t.toNat = 63 by omega]

/-! ## The meanings (R120 to R122) -/

theorem exec_rinit (s : State) : exec .rinit s = .next { s with r := s.h, seq := seqRound 0 } := rfl

theorem exec_round (t : Index) (s : State) :
    exec (.round t) s = .next { s with r := roundRegs (roundConstant t) (getW s t) s.r, seq := afterRound t } := rfl

theorem exec_ffwd (s : State) : exec .ffwd s = .next { s with h := addRegs s.h s.r, seq := seqNext } := rfl

/-- Eight words written out one by one, as the statement of RINIT does (R120). -/
theorem eight_words_eta (x : Vector Word 8) : #v[x[0], x[1], x[2], x[3], x[4], x[5], x[6], x[7]] = x := by
  ext j hj
  interval_cases j <;> rfl

theorem addRegs_getElem! (x y : Vector Word 8) {j : Nat} (hj : j < 8) : (addRegs x y)[j]! = x[j]! + y[j]! := by
  rw [getElem!_pos x j hj, getElem!_pos y j hj]
  interval_cases j <;> rfl

/-- Settles O18: the eight words of `H` are `H`, which RINIT copies. -/
theorem rinitCopiesHashState : Obligations.RinitCopiesHashState := by
  unfold Obligations.RinitCopiesHashState
  intro s
  refine ⟨decode_seqRinit, ?_⟩
  rw [exec_rinit, eight_words_eta]
  rfl

/-- Settles O19: the round on eight registers given one by one, with its functions, `K[t]` and `W[t]` written out. -/
theorem roundUpdatesWorkingRegisters : Obligations.RoundUpdatesWorkingRegisters := by
  unfold Obligations.RoundUpdatesWorkingRegisters
  intro s t a b c d e f g h hr t1 t2
  refine ⟨by rw [ofNat_eq_seqRound, decode_seqRound], ?_⟩
  rw [exec_round, hr, roundRegs_literal, afterRound_eq, roundConstant_eq, getW_eq, bsig0_eq, bsig1_eq, ch, maj, xor3]

/-- Settles O20: each word of the sum is the sum of the two words, which wraps on its own. -/
theorem ffwdAddsWordByWord : Obligations.FfwdAddsWordByWord := by
  unfold Obligations.FfwdAddsWordByWord
  intro s
  refine ⟨decode_seqFfwd, addRegs s.h s.r, by rw [exec_ffwd, seqNext_eq], fun j hj => ?_⟩
  rw [addRegs_getElem! s.h s.r hj, BitVec.toNat_add]

end Sys2Proof.Machine
end

section
/-! PROOFS. The compression of a block (42_compression R123): RINIT, the sixty-four rounds and FFWD leave
`Compress(H, W)` in `H`. -/

namespace Sys2Proof.Machine

/-- A run is cut after any of its steps. -/
theorem run_add_of_run {s t : State} {m : Nat} (h : Host.Core.run core m s = .next t) (k : Nat) :
    Host.Core.run core (m + k) s = Host.Core.run core k t := by
  induction m generalizing s with
  | zero =>
    cases h
    rw [Nat.zero_add]
  | succ m ih =>
    rw [Nat.add_right_comm]
    cases hs : step s with
    | next u =>
      rw [run_succ_of_step hs] at h ⊢
      exact ih h
    | fault f => simp [Host.Core.run, show core.step s = .fault f from hs] at h
    | refused r => simp [Host.Core.run, show core.step s = .refused r from hs] at h

theorem run_one_of_step {s t : State} (h : step s = .next t) : Host.Core.run core 1 s = .next t :=
  run_succ_of_step h 0

/-! ## The words of the rounds, and the next round -/

/-- `SEQ` with the first `n` rounds done, n = 0..64: ROUND `n`, then FFWD (R123, R146). -/
def roundSeq (n : Nat) : UWord := BitVec.ofNat 10 (0x180 + n)

theorem roundSeq_toNat (t : Index) : roundSeq t.toNat = seqRound t := ofNat_eq_seqRound t

theorem roundSeq_zero : roundSeq 0 = seqRound 0 := rfl

theorem roundSeq_end : roundSeq 64 = seqFfwd := rfl

theorem afterRound_eq_roundSeq (t : Index) : afterRound t = roundSeq (t.toNat + 1) := afterRound_eq_succ t

/-- Round `t` of `Rounds64` takes the two words that ROUND `t` takes: `K[t]` and `W[t]` (R121, R123). -/
theorem rounds_succ (x : Vector Word 8) (s : State) (t : Index) :
    rounds x s.w.toList (t.toNat + 1) = roundRegs (roundConstant t) (getW s t) (rounds x s.w.toList t.toNat) := by
  have hword : s.w.toList.getD t.toNat 0 = getW s t := by
    rw [List.getD_eq_getElem _ _ (by simpa using t.isLt), Vector.getElem_toList, getW]
  rw [rounds, BitVec.ofNat_toNat, BitVec.setWidth_eq, hword]

/-! ## One round, and all of them -/

/-- `t` is `s` with the first `n` rounds done on a copy of `H`, and nothing else changed but `SEQ`. -/
structure RoundedTo (s : State) (n : Nat) (t : State) : Prop where
  regs : t.r = rounds s.h s.w.toList n
  frame : t = { s with r := t.r, seq := roundSeq n }

theorem RoundedTo.step_next {s t : State} {n : Nat} (hin : s.inputs = []) (hn : n < 64) (h : RoundedTo s n t) :
    ∃ u, step t = .next u ∧ RoundedTo s (n + 1) u := by
  obtain ⟨i, rfl⟩ : ∃ i : Index, i.toNat = n := ⟨BitVec.ofNat 6 n, Nat.mod_eq_of_lt hn⟩
  obtain ⟨hregs, hframe⟩ := h
  have hin' : t.inputs = [] := by rw [hframe]; exact hin
  have hw : t.w = s.w := by rw [hframe]
  have hdecode : decode (.uop t.seq) = .ok (.round i) := by rw [hframe, roundSeq_toNat, decode_seqRound]
  refine ⟨_, (step_eq_exec hin' hdecode).trans (exec_round i t), ?_, ?_⟩
  · rw [hregs, ← hw, rounds_succ]
  · rw [afterRound_eq_roundSeq, hframe]

/-- RINIT starts the rounds: none is done, and the working registers are `H` (R120). -/
theorem step_rinit {s : State} (hin : s.inputs = []) (hseq : s.seq = seqRinit) :
    ∃ t, step s = .next t ∧ RoundedTo s 0 t :=
  ⟨_, (step_eq_exec hin (by rw [hseq, decode_seqRinit])).trans (exec_rinit s), rfl, rfl⟩

/-- FFWD ends the compression after round 63: the rounds' result is added into `H` (R122). -/
theorem RoundedTo.step_ffwd {s t : State} (hin : s.inputs = []) (h : RoundedTo s 64 t) :
    step t = .next { s with h := compress s.h s.w.toList, r := t.r, seq := seqNext } := by
  obtain ⟨hregs, hframe⟩ := h
  have hin' : t.inputs = [] := by rw [hframe]; exact hin
  have hdecode : decode (.uop t.seq) = .ok .ffwd := by rw [hframe, roundSeq_end, decode_seqFfwd]
  have hh : t.h = s.h := by rw [hframe]
  rw [step_eq_exec hin' hdecode, exec_ffwd, compress, ← hregs, hh, hframe]

/-- Settles O49: RINIT, the 64 rounds by `RoundedTo`, then FFWD. -/
theorem compressComputesCompression : Obligations.CompressComputesCompression := by
  unfold Obligations.CompressComputesCompression
  intro s hseq hin
  obtain ⟨t, hrinit, hstart⟩ := step_rinit hin (hseq.trans seqRinit_eq.symm)
  obtain ⟨u, hrounds, hdone⟩ :=
    run_of_step (fun _ hn _ h => RoundedTo.step_next hin hn h) (Nat.le_refl (0 + 64)) hstart
  refine ⟨{ s with h := compress s.h s.w.toList, r := u.r, seq := seqNext }, ?_, rfl, hdone.regs, rfl⟩
  calc Host.Core.run core 66 s = Host.Core.run core 65 t := run_succ_of_step hrinit 65
    _ = Host.Core.run core 1 u := run_add_of_run hrounds 1
    _ = _ := run_one_of_step (hdone.step_ffwd hin)

end Sys2Proof.Machine
end

section
/-! PROOFS. ASM (43_digest_assembly R135): the word it decodes from, the bytes it writes, the successor. -/

namespace Sys2Proof

theorem decode_seqAsm : decode (.uop seqAsm) = .ok .asm := rfl

end Sys2Proof

namespace Sys2Proof.Machine

theorem exec_asm (s : State) : exec .asm s = .next { s with digest := serialise s.h, seq := seqFin } := rfl

/-- The layout of the digest (R84): each word fills four bytes in a row. -/
theorem serialise_getElem! (x : Vector Word 8) {j i : Nat} (hj : j < 8) (hi : i < 4) :
    (serialise x)[4 * j + i]! = byteOf x[j]! i := by
  have hword : (4 * j + i) / 4 = j := by omega
  have hbyte : (4 * j + i) % 4 = i := by omega
  rw [getElem!_pos (serialise x) (4 * j + i) (by omega), getElem!_pos x j hj]
  simp only [serialise, Vector.getElem_ofFn, digestByte, hword, hbyte]

/-- Settles O23: byte `i` of digest word `j` is `BYTE_i(H[j])`, and `BYTE_0` is the most significant. -/
theorem asmWritesBigEndianDigest : Obligations.AsmWritesBigEndianDigest := by
  unfold Obligations.AsmWritesBigEndianDigest
  intro s
  refine ⟨decode_seqAsm, serialise s.h, by rw [exec_asm, seqFin_eq], fun j hj i hi => ?_⟩
  rw [serialise_getElem! s.h hj hi, byteOf_toNat]

end Sys2Proof.Machine
end

section
/-! PROOFS. The instructions of the orchestration family and the Host's reads (44_orchestration R140 to R142, R150): the
words they decode from, what each writes, the successors. -/

namespace Sys2Proof

/-! ## The words of PAD, HINIT and NEXT (R86), and the command START (R88) -/

theorem decode_seqPad : decode (.uop seqPad) = .ok .pad := rfl

theorem decode_seqHinit : decode (.uop seqHinit) = .ok .hinit := rfl

theorem decode_seqNext : decode (.uop seqNext) = .ok .next := rfl

theorem decode_commandWord_true (len : Quad) : decode (.command (commandWord true len)) = .ok (.start len) :=
  decodeCommand_commandWord true len

end Sys2Proof

namespace Sys2Proof.Machine

/-! ## START (R140) -/

theorem exec_start_of_wait_or_fin {s : State} (h : s.seq = seqWait ∨ s.seq = seqFin) (len : Quad) :
    exec (.start len) s = .next { s with len := len, seq := seqPad } := by
  rcases execStart_cases len s with ⟨_, heq⟩ | ⟨hwait, hfin, _⟩
  · exact heq
  · exact absurd h (not_or.mpr ⟨hwait, hfin⟩)

theorem exec_start_of_ne {s : State} (hwait : s.seq ≠ seqWait) (hfin : s.seq ≠ seqFin) (len : Quad) :
    exec (.start len) s = .next s := by
  rcases execStart_cases len s with ⟨h, _⟩ | ⟨_, _, heq⟩
  · exact absurd h (not_or.mpr ⟨hwait, hfin⟩)
  · exact heq

/-- Settles O8: `SEQ` is WAIT or FIN and START is accepted, or it is neither and START is ignored. -/
theorem startAcceptedOrIgnored : Obligations.StartAcceptedOrIgnored := by
  unfold Obligations.StartAcceptedOrIgnored
  rw [← seqWait_eq, ← seqFin_eq, ← seqPad_eq]
  exact fun s len =>
    ⟨decode_commandWord_true len, (exec_start_of_wait_or_fin · len), (exec_start_of_ne · · len)⟩

/-! ## HINIT (R141) -/

theorem exec_hinit (s : State) : exec .hinit s = .next { s with h := ivrom, blk := 0, seq := seqLdw 0 } := rfl

/-- Settles O13: the bound value is `IVROM` as R63 lists it. -/
theorem hinitLoadsInitialValue : Obligations.HinitLoadsInitialValue := by
  unfold Obligations.HinitLoadsInitialValue
  exact fun s => ⟨decode_seqHinit, exec_hinit s⟩

/-! ## NEXT (R142) -/

/-- Up to the last block `BLK + 1` fits in 64 bits, as `NBLK` does. -/
theorem blkAfterNext_of_le {blk nblk : Quad} (h : blk.toNat + 1 ≤ nblk.toNat) :
    blkAfterNext blk nblk = BitVec.ofNat 64 (blk.toNat + 1) := by
  have hfits : blk.toNat + 1 < 2 ^ 64 := Nat.lt_of_le_of_lt h nblk.isLt
  rw [blkAfterNext, if_pos hfits, BitVec.ofNat_add, BitVec.ofNat_toNat, BitVec.setWidth_eq]
  rfl

theorem afterNext_of_le {blk nblk : Quad} (h : blk.toNat + 1 ≤ nblk.toNat) :
    afterNext blk nblk = if blk.toNat + 1 < nblk.toNat then seqLdw 0 else seqAsm := by
  unfold afterNext
  split
  · rfl
  · rw [if_pos (by omega)]

theorem exec_next_of_le {s : State} (h : s.blk.toNat + 1 ≤ s.nblk.toNat) :
    exec .next s = .next { s with
      blk := BitVec.ofNat 64 (s.blk.toNat + 1)
      seq := if s.blk.toNat + 1 < s.nblk.toNat then seqLdw 0 else seqAsm } := by
  rw [← blkAfterNext_of_le h, ← afterNext_of_le h]
  rfl

/-- Settles O21: in both cases `BLK + 1` is at most `NBLK`, and the test of NEXT tells them apart. -/
theorem nextAdvancesBlock : Obligations.NextAdvancesBlock := by
  unfold Obligations.NextAdvancesBlock
  refine fun s => ⟨decode_seqNext, fun hmore => ?_, fun hlast => ?_⟩
  · rw [exec_next_of_le hmore.le, if_pos hmore]
    rfl
  · rw [exec_next_of_le hlast.le, if_neg hlast.not_lt, seqAsm_eq]

/-! ## Host reads (R150) -/

/-- The first move of the list is taken off it and performed. -/
theorem step_of_inputs_cons {s : State} {m : Move} {rest : List Move} (h : s.inputs = m :: rest) :
    step s = performMove m { s with inputs := rest } := by
  simp only [step, nextMove, takeMove, h, List.tail_cons]

theorem readDigest_of_fin {s : State} (h : s.seq = seqFin) (n : BitVec 5) :
    readDigest n s = .ok s.digest[n.toNat]! := by
  rw [readDigest, if_pos (flags_of_fin h).1, getElem!_pos s.digest n.toNat n.isLt]

theorem readDigest_of_ne_fin {s : State} (h : s.seq ≠ seqFin) (n : BitVec 5) :
    readDigest n s = .error .digestNotReadable := by
  rw [readDigest, if_neg (by simpa [done] using h)]

/-- Settles O35: a read of STATUS, of `DIGEST` in FIN, and of `DIGEST` elsewhere. -/
theorem hostReadsChangeNothing : Obligations.HostReadsChangeNothing := by
  unfold Obligations.HostReadsChangeNothing
  rw [← seqFin_eq]
  refine fun s rest n => ⟨fun hin => ?_, fun hfin => ⟨readDigest_of_fin hfin n, fun hin => ?_⟩,
    fun hne => ⟨readDigest_of_ne_fin hne n, fun hin => ?_⟩⟩
  · rw [step_of_inputs_cons hin, performMove]
  · have hread : readDigest n { s with inputs := rest } = .ok s.digest[n.toNat]! := readDigest_of_fin hfin n
    simp only [step_of_inputs_cons hin, performMove, hread]
  · have hread : readDigest n { s with inputs := rest } = .error .digestNotReadable := readDigest_of_ne_fin hne n
    simp only [step_of_inputs_cons hin, performMove, hread]

end Sys2Proof.Machine
end

section
/-! PROOFS. The sequencer (44_orchestration R146): the successor of each instruction, then of each word. -/

namespace Sys2Proof.Machine

/-! ## The successor of each instruction that has a condition -/

theorem seq_of_exec_pad {s t : State} (h : exec .pad s = .next t) :
    (t.seq = seqFault ∧ (2 ^ 61 ≤ s.len.toNat ∨ s.cfg.pmCap < paddedLength s.len.toNat)) ∨
    (t.seq = seqHinit ∧ s.len.toNat < 2 ^ 61 ∧ paddedLength s.len.toNat ≤ s.cfg.pmCap) := by
  rw [exec_pad] at h
  rcases execPad_cases s with ⟨hlong, heq⟩ | ⟨_, hbig, heq⟩ | ⟨hlen, hfits, ⟨a, _, heq⟩ | ⟨m, _, heq⟩⟩ <;>
    rw [heq] at h <;> cases h
  · exact .inl ⟨rfl, .inl hlong⟩
  · exact .inl ⟨rfl, .inr hbig⟩
  · exact .inr ⟨rfl, hlen, hfits⟩

theorem seq_of_exec_ldw {s t : State} {n : Index} (hn : n.toNat < 16) (h : exec (.ldw n) s = .next t) :
    t.seq = afterLdw n := by
  rcases execLdw_cases n s with ⟨hge, _⟩ | ⟨_, ⟨f, _, heq⟩ | ⟨v, _, heq⟩⟩
  · omega
  all_goals
    rw [show exec (.ldw n) s = execLdw n s from rfl, heq] at h
    cases h
  rfl

theorem seq_of_exec_expw {s t : State} {n : Index} (hn : 16 ≤ n.toNat) (h : exec (.expw n) s = .next t) :
    t.seq = afterExpw n := by
  rw [exec_expw_of_le hn] at h
  cases h
  rfl

theorem seq_of_exec_next {s t : State} (hle : s.blk.toNat + 1 ≤ s.nblk.toNat) (h : exec .next s = .next t) :
    t.seq = if s.blk.toNat + 1 < s.nblk.toNat then seqLdw 0 else seqAsm := by
  rw [exec_next_of_le hle] at h
  cases h
  rfl

/-! ## From the word in `SEQ` to its instruction -/

theorem engineStep_of_decode {s : State} {w : UWord} {i : Instr} (hw : s.seq = w) (hd : decode (.uop w) = .ok i) :
    engineStep s = exec i s := by
  simp only [engineStep, hw, hd]

/-- A number below 64 is the number of an index. -/
theorem exists_index_toNat {n : Nat} (h : n < 64) : ∃ i : Index, i.toNat = n :=
  ⟨BitVec.ofNat 6 n, Nat.mod_eq_of_lt h⟩

theorem seq_after_seqLdw {s t : State} {n : Index} (hn : n.toNat < 16) (hs : s.seq = seqLdw n)
    (h : engineStep s = .next t) : t.seq = afterLdw n :=
  seq_of_exec_ldw hn (engineStep_of_decode hs (decode_seqLdw hn) ▸ h)

theorem seq_after_seqExpw {s t : State} {n : Index} (hn : 16 ≤ n.toNat) (hs : s.seq = seqExpw n)
    (h : engineStep s = .next t) : t.seq = afterExpw n :=
  seq_of_exec_expw hn (engineStep_of_decode hs (decode_seqExpw hn) ▸ h)

theorem seq_after_seqRound {s t : State} {n : Index} (hs : s.seq = seqRound n) (h : engineStep s = .next t) :
    t.seq = afterRound n := by
  rw [engineStep_of_decode hs (decode_seqRound n), exec_round] at h
  cases h
  rfl

/-- Where `SEQ` holds a word that is no instruction the successor is FAULT (R90, R163). -/
theorem seq_after_reserved {s t : State} (hs : ∀ i, decode (.uop s.seq) ≠ .ok i) (h : engineStep s = .next t) :
    t.seq = seqFault := by
  have hreserved : legalWord s.seq = false :=
    Bool.eq_false_iff.mpr fun hl => (legalWord_iff_decodes s.seq).mp hl |>.elim hs
  rw [engineStep_of_reserved hreserved] at h
  cases h
  rfl

/-! ## The rows with an index, as the table numbers them -/

theorem seq_after_ldw_row {s t : State} {n : Nat} (hn : n < 15) (hs : s.seq = BitVec.ofNat 10 (0x0C0 + n))
    (h : engineStep s = .next t) : t.seq = BitVec.ofNat 10 (0x0C0 + (n + 1)) := by
  obtain ⟨i, rfl⟩ := exists_index_toNat (show n < 64 by omega)
  rw [seq_after_seqLdw (by omega) (hs.trans (ofNat_eq_seqLdw i)) h, afterLdw_eq, if_pos hn, Nat.add_assoc]

theorem seq_after_expw_row {s t : State} {n : Nat} (hlow : 16 ≤ n) (hn : n < 63)
    (hs : s.seq = BitVec.ofNat 10 (0x100 + n)) (h : engineStep s = .next t) :
    t.seq = BitVec.ofNat 10 (0x100 + (n + 1)) := by
  obtain ⟨i, rfl⟩ := exists_index_toNat (show n < 64 by omega)
  rw [seq_after_seqExpw hlow (hs.trans (ofNat_eq_seqExpw i)) h, afterExpw_eq, if_pos hn, Nat.add_assoc]

theorem seq_after_round_row {s t : State} {n : Nat} (hn : n < 63) (hs : s.seq = BitVec.ofNat 10 (0x180 + n))
    (h : engineStep s = .next t) : t.seq = BitVec.ofNat 10 (0x180 + (n + 1)) := by
  obtain ⟨i, rfl⟩ := exists_index_toNat (show n < 64 by omega)
  rw [seq_after_seqRound (hs.trans (ofNat_eq_seqRound i)) h, afterRound_eq, if_pos hn, Nat.add_assoc]

/-! ## The table -/

/-- Settles O29: row by row; the word gives the instruction, and the instruction its successor. -/
theorem sequencerTable : Obligations.SequencerTable := by
  unfold Obligations.SequencerTable
  refine fun s t => ⟨fun h => ?_, fun len h => ?_, rfl⟩
  · have hexec {w : UWord} {i : Instr} (hd : decode (.uop w) = .ok i) (hs : s.seq = w) : exec i s = .next t :=
      engineStep_of_decode hs hd ▸ h
    refine ⟨fun hs => ?wait, fun hs => ?pad, fun hs => ?hinit, fun n hn hs => seq_after_ldw_row hn hs h,
      fun hs => seq_after_seqLdw (n := 15) (by decide) hs h, fun n hlow hn hs => seq_after_expw_row hlow hn hs h,
      fun hs => seq_after_seqExpw (n := 63) (by decide) hs h, fun hs => ?rinit,
      fun n hn hs => seq_after_round_row hn hs h, fun hs => seq_after_seqRound (n := 63) hs h, fun hs => ?ffwd,
      fun hs hmore => ?more, fun hs hlast => ?last, fun hs => ?asm, fun hs => ?fin, fun hs => ?fault,
      fun hs => seq_after_reserved hs h⟩
    case wait => cases hexec (i := .wait) rfl hs; rfl
    case fin => cases hexec (i := .fin) rfl hs; rfl
    case fault => cases hexec (i := .fault) rfl hs; rfl
    case pad => exact seq_of_exec_pad (hexec decode_seqPad hs)
    case hinit => cases hexec decode_seqHinit hs; rfl
    case rinit => cases hexec decode_seqRinit hs; rfl
    case ffwd => cases hexec decode_seqFfwd hs; rfl
    case asm => cases hexec decode_seqAsm hs; rfl
    case more => rw [seq_of_exec_next hmore.le (hexec decode_seqNext hs), if_pos hmore]; rfl
    case last => rw [seq_of_exec_next hlast.le (hexec decode_seqNext hs), if_neg hlast.not_lt, seqAsm_eq]
  · rw [← seqWait_eq, ← seqFin_eq]
    refine ⟨fun hs => ?_, fun hwait hfin => ?_⟩
    · rw [exec_start_of_wait_or_fin hs] at h
      cases h
      rfl
    · rw [exec_start_of_ne hwait hfin] at h
      cases h
      rfl

end Sys2Proof.Machine
end

section
/-! PROOFS. A whole run (44_orchestration R147, R149): START, PAD and HINIT, 131 steps for each block, then ASM. -/

namespace Sys2Proof.Machine

/-! ## A run that ends busy has been busy all along -/

theorem EngineStepTo.inputs_eq {s t : State} (h : EngineStepTo s t) : t.inputs = s.inputs := by
  cases h <;> rfl

theorem seq_of_not_busy {s : State} (h : busy s = false) : s.seq = seqWait ∨ s.seq = seqFin ∨ s.seq = seqFault := by
  rw [← Bool.not_eq_true, busy_eq_true_iff] at h
  tauto

/-- In WAIT, FIN and FAULT the Engine's move changes nothing (R143 to R145). -/
theorem step_of_not_busy {s : State} (hin : s.inputs = []) (h : busy s = false) : step s = .next s := by
  rcases seq_of_not_busy h with hw | hw | hw
  · exact step_eq_exec (i := .wait) hin (by rw [hw]; rfl)
  · exact step_eq_exec (i := .fin) hin (by rw [hw]; rfl)
  · exact step_eq_exec (i := .fault) hin (by rw [hw]; rfl)

theorem run_of_not_busy {s : State} (hin : s.inputs = []) (h : busy s = false) (k : Nat) :
    Host.Core.run core k s = .next s := by
  induction k with
  | zero => rfl
  | succ k ih => rw [run_succ_of_step (step_of_not_busy hin h), ih]

theorem busy_of_run_busy {s t : State} {k : Nat} (hin : s.inputs = []) (h : Host.Core.run core k s = .next t)
    (hbusy : busy t = true) : busy s = true := by
  by_contra hs
  rw [run_of_not_busy hin (by simpa using hs)] at h
  cases h
  exact hs hbusy

theorem step_inputs_nil {s t : State} (hin : s.inputs = []) (h : step s = .next t) : t.inputs = [] := by
  obtain ⟨hmove, htake⟩ := step_of_inputs_nil hin
  rw [step, hmove, htake] at h
  exact (engineStep_eq_next h).inputs_eq.trans hin

/-- A run that goes on has a first step that goes on. -/
theorem exists_step_of_run_succ {s t : State} {k : Nat} (h : Host.Core.run core (k + 1) s = .next t) :
    ∃ u, step s = .next u ∧ Host.Core.run core k u = .next t := by
  cases hs : step s with
  | next u => exact ⟨u, rfl, run_succ_of_step hs k ▸ h⟩
  | fault f => simp [Host.Core.run, show core.step s = .fault f from hs] at h
  | refused r => simp [Host.Core.run, show core.step s = .refused r from hs] at h

/-- Were the Engine at rest at some moment of the run, it would be at rest at the end. -/
theorem busy_during_run {s t : State} {k : Nat} (hin : s.inputs = []) (h : Host.Core.run core k s = .next t)
    (hbusy : busy t = true) {j : Nat} (hj : j ≤ k) : ∃ u, Host.Core.run core j s = .next u ∧ busy u = true := by
  induction j generalizing s k with
  | zero => exact ⟨s, rfl, busy_of_run_busy hin h hbusy⟩
  | succ j ih =>
    obtain ⟨l, rfl⟩ := Nat.exists_eq_add_of_le' (Nat.one_le_of_lt hj)
    obtain ⟨u, hs, hu⟩ := exists_step_of_run_succ h
    rw [run_succ_of_step hs]
    exact ih (step_inputs_nil hin hs) hu (Nat.le_of_succ_le_succ hj)

/-! ## The blocks of the padded message (R53, R83) -/

theorem length_blockOf_padMessage {m : List Byte} {b : Nat} (hb : b < blockCount m.length) :
    (blockOf (padMessage m) b).length = 64 := by
  have hlen := padMessage_length m
  rw [paddedLength_eq_blocks] at hlen
  rw [blockOf, List.length_take, List.length_drop]
  omega

theorem blockOf_padMessage_getElem? {m : List Byte} {b n : Nat} (hb : b < blockCount m.length) (hn : n < 64) :
    (blockOf (padMessage m) b)[n]? = some (padByte m (64 * b + n)) := by
  have hblocks := paddedLength_eq_blocks m.length
  rw [blockOf, List.getElem?_take_of_lt hn, List.getElem?_drop, padMessage_getElem? (by omega)]

/-- `NBLK` and every `BLK` of a run are below 2^64, so that the 64-bit registers hold the numbers themselves (R101). -/
theorem toNat_ofNat_of_le_blockCount {len b : Nat} (hlen : len < 2 ^ 61) (hb : b ≤ blockCount len) :
    (BitVec.ofNat 64 b).toNat = b := by
  have hcount := blockCount_eq len
  rw [BitVec.toNat_ofNat, Nat.mod_eq_of_lt (by omega)]

/-! ## One block -/

/-- From LDW 0 to past NEXT (R112, R123, R142): 64 steps of the schedule, 66 of the compression, and NEXT. -/
theorem run_block {s : State} {blk : List Byte} (hblk : HoldsBlock s blk) (hin : s.inputs = [])
    (hseq : s.seq = seqLdw 0) (hle : s.blk.toNat + 1 ≤ s.nblk.toNat) :
    ∃ (r : Vector Word 8) (w : Vector Word 64), Host.Core.run core 131 s = .next { s with
      h := compress s.h (schedule blk)
      r := r
      w := w
      blk := BitVec.ofNat 64 (s.blk.toNat + 1)
      seq := if s.blk.toNat + 1 < s.nblk.toNat then seqLdw 0 else seqAsm } := by
  obtain ⟨(u : State), hsched, hw, hu⟩ := schedComputesSchedule s blk hseq hin hblk.length hblk.cap hblk.bytes
  obtain ⟨(v : State), hcomp, hh, -, hv⟩ := compressComputesCompression u (by rw [hu]) (by rw [hu]; exact hin)
  have hvs : v = { s with h := compress s.h (schedule blk), r := v.r, w := u.w, seq := seqNext } := by
    rw [hv, hh, hw, hu]
    rfl
  have hnext : step v = exec .next v :=
    step_eq_exec (by rw [hvs]; exact hin) (by rw [hvs, decode_seqNext])
  rw [exec_next_of_le (by rw [hvs]; exact hle), hvs] at hnext
  refine ⟨v.r, u.w, ?_⟩
  calc Host.Core.run core 131 s = Host.Core.run core (66 + 1) u := run_add_of_run hsched 67
    _ = Host.Core.run core 1 v := run_add_of_run hcomp 1
    _ = _ := run_one_of_step (hvs ▸ hnext)

/-! ## From one block to the next -/

/-- The word with `b` blocks done: LDW 0 of the next block or, after the last, ASM (R142). -/
def blockSeq (m : List Byte) (b : Nat) : UWord := if b < blockCount m.length then seqLdw 0 else seqAsm

/-- `t` is the state that PAD of the message `m` leaves, with `b` blocks hashed, and nothing else changed but the
working registers, the schedule, `BLK` and `SEQ`. -/
def HashedTo (s : State) (m : List Byte) (b : Nat) (t : State) : Prop :=
  ∃ (r : Vector Word 8) (w : Vector Word 64), t = { padWith m s with
    h := chain (padMessage m) b
    r := r
    w := w
    blk := BitVec.ofNat 64 b
    seq := blockSeq m b }

/-- A run accepts the message: its length is below 2^61 and its padded form fits in `PM` (R100). -/
structure Accepts (s : State) (m : List Byte) : Prop where
  short : m.length < 2 ^ 61
  fits : paddedLength m.length ≤ s.cfg.pmCap

/-- What PAD wrote is what LDW reads: block `b` of `PM` is block `b` of the padded message. -/
theorem padWith_holdsBlock {s t : State} {m : List Byte} {b : Nat} (hacc : Accepts s m)
    (hb : b < blockCount m.length) (hblk : t.blk.toNat = b) (hpm : t.pm = (padWith m s).pm) (hcfg : t.cfg = s.cfg) :
    HoldsBlock t (blockOf (padMessage m) b) := by
  have hblocks := paddedLength_eq_blocks m.length
  have hfits := hacc.fits
  refine ⟨length_blockOf_padMessage hb, by rw [hblk, hcfg]; omega, fun n hn => ?_⟩
  rw [hblk, hpm, padWith_pm_read_below s (by omega), blockOf_padMessage_getElem? hb hn]

theorem HashedTo.run_next {s t : State} {m : List Byte} {b : Nat} (hacc : Accepts s m) (hin : s.inputs = [])
    (hb : b < blockCount m.length) (h : HashedTo s m b t) :
    ∃ u, Host.Core.run core 131 t = .next u ∧ HashedTo s m (b + 1) u := by
  obtain ⟨r, w, ht⟩ := h
  have hblk : t.blk.toNat = b := by rw [ht]; exact toNat_ofNat_of_le_blockCount hacc.short hb.le
  have hnblk : t.nblk.toNat = blockCount m.length := by
    rw [ht]; exact toNat_ofNat_of_le_blockCount hacc.short le_rfl
  have hholds := padWith_holdsBlock hacc hb hblk (by rw [ht]) (by rw [ht]; rfl)
  obtain ⟨r', w', hrun⟩ := run_block hholds (by rw [ht]; exact hin) (by rw [ht, blockSeq, if_pos hb]) (by omega)
  refine ⟨_, hrun, r', w', ?_⟩
  rw [hblk, hnblk, ht]
  rfl

theorem HashedTo.run_blocks {s t : State} {m : List Byte} (hacc : Accepts s m) (hin : s.inputs = [])
    (h : HashedTo s m 0 t) {b : Nat} (hb : b ≤ blockCount m.length) :
    ∃ u, Host.Core.run core (131 * b) t = .next u ∧ HashedTo s m b u := by
  induction b with
  | zero => exact ⟨t, rfl, h⟩
  | succ b ih =>
    obtain ⟨u, hrun, hu⟩ := ih (by omega)
    obtain ⟨v, hrun', hv⟩ := hu.run_next hacc hin hb
    exact ⟨v, by rw [Nat.mul_succ, run_add_of_run hrun, hrun'], hv⟩

/-! ## The whole run -/

/-- PAD reads `m` where `MSG` holds it and a run accepts it (R100). -/
theorem execPad_of_message {s : State} {m : List Byte} (hacc : Accepts s m) (hlen : s.len.toNat = m.length)
    (hmsg : ∀ n < m.length, s.msg.read n = m[n]?) : execPad s = .next (padWith m s) := by
  have hread : s.msg.readBytes 0 s.len.toNat = .ok m :=
    Memory.readBytes_eq_ok.mpr ⟨hlen.symm, fun n hn => by rw [Nat.zero_add, hmsg n (by omega)]⟩
  have hshort := hacc.short
  have hfits := hacc.fits
  rw [execPad, if_neg (by omega), if_neg (by rw [hlen]; omega), hread]

/-- PAD and HINIT leave no block hashed, and the initial hash value (R100, R141). -/
theorem run_pad_hinit {s : State} {m : List Byte} (hacc : Accepts s m) (hin : s.inputs = []) (hseq : s.seq = seqPad)
    (hlen : s.len.toNat = m.length) (hmsg : ∀ n < m.length, s.msg.read n = m[n]?) :
    ∃ t, Host.Core.run core 2 s = .next t ∧ HashedTo s m 0 t := by
  have hpad : step s = .next (padWith m s) :=
    (step_eq_exec (i := .pad) hin (by rw [hseq, decode_seqPad])).trans (execPad_of_message hacc hlen hmsg)
  have hhinit : step (padWith m s) = exec .hinit (padWith m s) := step_eq_exec hin decode_seqHinit
  have hfirst : blockSeq m 0 = seqLdw 0 := if_pos (one_le_blockCount m.length)
  refine ⟨_, (run_succ_of_step hpad 1).trans (run_one_of_step (hhinit.trans (exec_hinit _))),
    s.r, s.w, ?_⟩
  rw [hfirst]
  rfl

/-- From PAD to ASM: PAD, HINIT and 131 steps for each block (R149). -/
theorem run_from_pad {s : State} {m : List Byte} (hacc : Accepts s m) (hin : s.inputs = []) (hseq : s.seq = seqPad)
    (hlen : s.len.toNat = m.length) (hmsg : ∀ n < m.length, s.msg.read n = m[n]?) :
    ∃ t, Host.Core.run core (2 + 131 * blockCount m.length) s = .next t ∧ HashedTo s m (blockCount m.length) t := by
  obtain ⟨t, hstart, ht⟩ := run_pad_hinit hacc hin hseq hlen hmsg
  obtain ⟨u, hblocks, hu⟩ := ht.run_blocks hacc hin le_rfl
  exact ⟨u, (run_add_of_run hstart _).trans hblocks, hu⟩

/-- With all blocks hashed the Engine stands at ASM, which writes the digest (R135, R147). -/
theorem HashedTo.step_asm {s t : State} {m : List Byte} (hin : s.inputs = [])
    (h : HashedTo s m (blockCount m.length) t) :
    busy t = true ∧ step t = .next { t with digest := digestOf m, seq := seqFin } := by
  obtain ⟨r, w, ht⟩ := h
  have hseq : t.seq = seqAsm := by rw [ht]; exact if_neg (Nat.lt_irrefl _)
  have hh : t.h = chain (padMessage m) (blockCount m.length) := by rw [ht]
  refine ⟨(busy_eq_true_iff t).mpr (by rw [hseq]; decide), ?_⟩
  rw [step_eq_exec (by rw [ht]; exact hin) (by rw [hseq, decode_seqAsm]), exec_asm, hh, digestOf]

/-- An accepted START from the port (R88, R140). -/
theorem step_start {s : State} {len : Quad} {rest : List Move} (hseq : s.seq = seqWait ∨ s.seq = seqFin)
    (hin : s.inputs = .port (commandWord true len) :: rest) :
    step s = .next { s with inputs := rest, len := len, seq := seqPad } := by
  rw [step_of_inputs_cons hin, performMove, presentPort, decode_commandWord_true]
  exact exec_start_of_wait_or_fin (s := { s with inputs := rest }) hseq len

/-- Settles O50: the run leads to ASM and is busy there, hence busy from START on, and the step of ASM ends it. -/
theorem runComputesDigest : Obligations.RunComputesDigest := by
  unfold Obligations.RunComputesDigest
  intro s m hseq hin hshort hfits hmsg
  have hstart := step_start hseq hin
  have hlen : (BitVec.ofNat 64 m.length).toNat = m.length := by
    rw [BitVec.toNat_ofNat, Nat.mod_eq_of_lt (by omega)]
  obtain ⟨t, hrun, ht⟩ := run_from_pad (s := { s with inputs := [], len := BitVec.ofNat 64 m.length, seq := seqPad })
    ⟨hshort, hfits⟩ rfl rfl hlen hmsg
  obtain ⟨hbusy, hasm⟩ := ht.step_asm rfl
  refine ⟨fun k hk hle => ?_, { t with digest := digestOf m, seq := seqFin }, ?_, seqFin_eq, rfl, ?_⟩
  · obtain ⟨j, rfl⟩ := Nat.exists_eq_add_of_le' hk
    rw [run_succ_of_step hstart]
    exact busy_during_run rfl hrun hbusy (by omega)
  · rw [show 1 + (3 + 131 * blockCount m.length) = 2 + 131 * blockCount m.length + 1 + 1 by omega,
      run_succ_of_step hstart, run_add_of_run hrun, run_one_of_step hasm]
  · obtain ⟨r, w, rfl⟩ := ht
    exact ⟨rfl, rfl, hlen⟩

end Sys2Proof.Machine
end

section
/-! PROOFS. Faults (60_exceptions R160 to R165): what raises each, what fault entry leaves, and that only reset ends it. -/

namespace Sys2Proof.Machine

/-! ## The faults of PAD (R161, R162) -/

/-- PAD that completes leads to HINIT; where it leads to FAULT, the code tells which of its two tests raised. -/
theorem err_of_exec_pad_into_fault {s t : State} (h : exec .pad s = .next t) (ht : t.seq = seqFault) :
    (t.err = 1 ∧ 2 ^ 61 ≤ s.len.toNat) ∨
    (t.err = 2 ∧ s.len.toNat < 2 ^ 61 ∧ s.cfg.pmCap < paddedLength s.len.toNat) := by
  rw [exec_pad] at h
  rcases execPad_cases s with ⟨hlong, heq⟩ | ⟨hlen, hbig, heq⟩ | ⟨_, _, ⟨a, _, heq⟩ | ⟨m, _, heq⟩⟩ <;>
    rw [heq] at h <;> cases h
  · exact .inl ⟨rfl, hlong⟩
  · exact .inr ⟨rfl, hlen, hbig⟩
  · exact absurd ht (uword_ne_seqFault (by decide) _)

/-- Settles O11: code 1 in FAULT comes from the first test of PAD, and a long `LEN` always gives it. -/
theorem lengthOverflowExactly : Obligations.LengthOverflowExactly := by
  unfold Obligations.LengthOverflowExactly
  refine fun s => ⟨⟨fun h => ?_, execPad_of_tooLong⟩, by omega⟩
  rcases err_of_exec_pad_into_fault h rfl with ⟨_, hlong⟩ | ⟨herr, _⟩
  · exact hlong
  · exact absurd herr (by decide : (1 : BitVec 2) ≠ 2)

/-- `L` is the smallest multiple of 64 not below `LEN + 9` (R162). -/
theorem paddedLength_le_iff {len x : Nat} (hmod : x % 64 = 0) : paddedLength len ≤ x ↔ len + 9 ≤ x := by
  have hlength := paddedLength_eq len
  exact ⟨fun h => by omega, paddedLength_least hmod⟩

/-- Settles O12: code 2 in FAULT comes from the second test of PAD; `L` and `PM_CAP` are both multiples of 64. -/
theorem capacityFaultExactly : Obligations.CapacityFaultExactly := by
  unfold Obligations.CapacityFaultExactly
  rintro s ⟨hmod, hcap⟩
  refine ⟨⟨fun h => ?_, fun ⟨hlen, hbig⟩ => execPad_of_tooBig hlen hbig⟩, ?_⟩
  · rcases err_of_exec_pad_into_fault h rfl with ⟨herr, _⟩ | ⟨_, hlen, hbig⟩
    · exact absurd herr (by decide : (2 : BitVec 2) ≠ 1)
    · exact ⟨hlen, hbig⟩
  · rw [paddedLength_le_iff hmod]
    omega

/-! ## Entering FAULT (R160, R164) -/

/-- In WAIT, FIN and FAULT the Engine's step changes nothing (R143 to R145), whatever the Host is to do. -/
theorem engineStep_of_not_busy {s : State} (h : busy s = false) : engineStep s = .next s := by
  rcases seq_of_not_busy h with hs | hs | hs
  · exact engineStep_of_decode (i := .wait) hs rfl
  · exact engineStep_of_decode (i := .fin) hs rfl
  · exact engineStep_of_decode (i := .fault) hs rfl

/-- The rows of R160: which fault the Engine's step raises, and when. -/
inductive Raises (s : State) : FaultCode → Prop where
  | lengthOverflow (h : s.seq = seqPad) (hl : 2 ^ 61 ≤ s.len.toNat) : Raises s .lengthOverflow
  | capacityFault (h : s.seq = seqPad) (hl : s.len.toNat < 2 ^ 61) (hc : s.cfg.pmCap < paddedLength s.len.toNat) :
      Raises s .capacityFault
  | illegalUop (h : ∀ i, decode (.uop s.seq) ≠ .ok i) : Raises s .illegalUop

/-- A step into FAULT is the entry of a fault that R160 lists; every other row of the sequencer leads elsewhere. -/
theorem EngineStepTo.exists_raises {s t : State} (h : EngineStepTo s t) (hs : s.seq ≠ seqFault)
    (ht : t.seq = seqFault) : ∃ f, Raises s f ∧ t = faultEntry f s := by
  cases h with
  | padTooLong hseq hlong => exact ⟨_, .lengthOverflow hseq hlong, rfl⟩
  | padTooBig hseq hlen hbig => exact ⟨_, .capacityFault hseq hlen hbig, rfl⟩
  | reserved hnone => exact ⟨_, .illegalUop hnone, rfl⟩
  | standing _ => exact absurd ht hs
  | pad _ _ _ _ _ | hinit _ | rinit _ | ffwd _ | asm _ => exact absurd ht (uword_ne_seqFault (by decide) _)
  | ldw n _ _ _ _ => exact absurd ht (afterLdw_ne_seqFault n)
  | expw n _ _ => exact absurd ht (afterExpw_ne_seqFault n)
  | round n _ => exact absurd ht (afterRound_ne_seqFault n)
  | next _ => exact absurd ht (afterNext_ne_seqFault _ _)

/-- A step that changes `SEQ` is taken while busy. -/
theorem busy_of_engineStep_seq_ne {s t : State} (h : engineStep s = .next t) (hne : s.seq ≠ t.seq) :
    busy s = true := by
  by_contra hidle
  rw [engineStep_of_not_busy (Bool.eq_false_iff.mpr hidle)] at h
  cases h
  exact hne rfl

/-- Settles O31: the step is a fault entry of R160, so it writes `ERR` and `SEQ` only, and `SEQ` gives the flags. -/
theorem faultEntryChangesErrAndSeqOnly : Obligations.FaultEntryChangesErrAndSeqOnly := by
  unfold Obligations.FaultEntryChangesErrAndSeqOnly
  rw [← seqPad_eq, ← seqFault_eq]
  intro s t hs h ht
  have hbusy : busy s = true := busy_of_engineStep_seq_ne h (ht ▸ hs)
  obtain ⟨hdone, hstopped⟩ := flags_of_fault ht
  obtain ⟨f, hraises, rfl⟩ := (engineStep_eq_next h).exists_raises hs ht
  refine ⟨rfl, hbusy, hstopped, beq_iff_eq.mpr ht, done_of_busy hbusy, hdone, ?_⟩
  cases hraises with
  | lengthOverflow hseq hlong => exact .inl ⟨hseq, hlong, rfl⟩
  | capacityFault hseq hlen hbig => exact .inr (.inl ⟨hseq, hlen, hbig, rfl⟩)
  | illegalUop hnone => exact .inr (.inr ⟨hnone, rfl⟩)

/-! ## No return (R165) -/

/-- Settles O32: the only step that could write a code is the Engine's, which changes nothing in FAULT. -/
theorem faultIsLeftByResetOnly : Obligations.FaultIsLeftByResetOnly := by
  unfold Obligations.FaultIsLeftByResetOnly
  rw [← seqFault_eq]
  refine fun s t hs h => ⟨fun hne => ?_, fun hm => ?_⟩
  · rcases (step_eq_next h).keepsFault_or_reset_or_faultEntered with ⟨herr, hseq⟩ | ⟨hm, _⟩ | ⟨hm, _⟩
    · exact ⟨hseq.mpr hs, herr⟩
    · exact absurd hm hne
    · have hidle : engineStep (takeMove s) = .next (takeMove s) := engineStep_of_not_busy (flags_of_fault hs).2
      rw [step, hm, performMove, hidle] at h
      cases h
      exact ⟨hs, rfl⟩
  · rw [step, hm, performMove] at h
    cases h
    exact ⟨rfl, rfl⟩

end Sys2Proof.Machine
end

section
/-! PROOFS. The round trip between words and instructions (30_encoding R85 to R91). -/

namespace Sys2Proof

theorem decode_encode {i : Instr} (h : i.wellFormed = true) : decode (encode i) = .ok i := by
  cases i with
  | ldw t => exact decode_seqLdw (of_decide_eq_true h)
  | expw t => exact decode_seqExpw (of_decide_eq_true h)
  | round t => exact decode_seqRound t
  | start len => exact decode_commandWord_true len
  | wait | pad | hinit | rinit | ffwd | next | asm | fin | fault => rfl

/-- Settles O4: the opcode map gives back each word's instruction, the index with it, and the port START's length. -/
theorem decodeOfEncode : Obligations.DecodeOfEncode := by
  unfold Obligations.DecodeOfEncode
  exact fun i hi => decode_encode hi

/-- A word is known from its opcode number and its index. -/
theorem uword_eq_of_fields {w : UWord} {o : BitVec 4} {t : Index} (ho : (opcOf w).toNat = o.toNat)
    (ht : t.toNat = (indexOf w).toNat) : uword o t = w := by
  rw [← BitVec.eq_of_toNat_eq ho, BitVec.eq_of_toNat_eq ht, uword_fields]

theorem encode_of_decode_uop {w : UWord} {i : Instr} (h : decode (.uop w) = .ok i) : encode i = .uop w := by
  rw [decode_uop, decodeFields_eq_ok] at h
  cases i with
  | ldw t | expw t =>
    obtain ⟨hopc, rfl, _⟩ := h
    exact congrArg CodeWord.uop (uword_eq_of_fields hopc rfl)
  | round t =>
    obtain ⟨hopc, rfl⟩ := h
    exact congrArg CodeWord.uop (uword_eq_of_fields hopc rfl)
  | start _ => exact h.elim
  | wait | pad | hinit | rinit | ffwd | next | asm | fin | fault =>
    obtain ⟨hopc, hindex⟩ := h
    exact congrArg CodeWord.uop (uword_eq_of_fields hopc hindex.symm)

theorem wellFormed_of_decode_uop {w : UWord} {i : Instr} (h : decode (.uop w) = .ok i) : i.wellFormed = true := by
  rw [decode_uop, decodeFields_eq_ok] at h
  cases i with
  | ldw t | expw t =>
    obtain ⟨_, rfl, hindex⟩ := h
    exact decide_eq_true hindex
  | start _ => exact h.elim
  | wait | pad | hinit | round _ | rinit | ffwd | next | asm | fin | fault => rfl

/-- Settles O5: a micro-operation word by its two fields, a port word by its `start` bit and `HLEN`. -/
theorem encodeOfDecode : Obligations.EncodeOfDecode := by
  unfold Obligations.EncodeOfDecode
  intro c i h
  cases c with
  | uop w => exact ⟨wellFormed_of_decode_uop h, encode_of_decode_uop h⟩
  | command w =>
    obtain ⟨len, rfl, rfl⟩ := Machine.decodeCommand_eq_ok h
    exact ⟨rfl, rfl⟩

end Sys2Proof
end

section
/-! PROOFS. The invariant of the machine (10_state R20 to R29, R35; 44_orchestration R146): reset has it and each step
keeps it. -/

namespace Sys2Proof.Machine

/-! ## Where a word stands in the run (R146) -/

theorem afterPadding_uword_iff (o : BitVec 4) (t : Index) :
    afterPadding (uword o t) ↔ 2 ≤ o.toNat ∧ o.toNat ≤ 9 := by
  rw [afterPadding, opcOf_uword]

theorem insideLoop_uword_iff (o : BitVec 4) (t : Index) :
    insideLoop (uword o t) ↔ 3 ≤ o.toNat ∧ o.toNat ≤ 8 := by
  rw [insideLoop, opcOf_uword]

theorem insideLoop.afterPadding {w : UWord} (h : insideLoop w) : afterPadding w :=
  ⟨Nat.le_of_succ_le h.1, Nat.le_succ_of_le h.2⟩

theorem ne_seqAsm_of_insideLoop {w : UWord} (h : insideLoop w) : w ≠ seqAsm := by
  rintro rfl
  exact absurd h (by decide)

theorem insideLoop_afterLdw (t : Index) : insideLoop (afterLdw t) := by
  unfold afterLdw
  split <;> exact (insideLoop_uword_iff _ _).mpr (by decide)

theorem insideLoop_afterExpw (t : Index) : insideLoop (afterExpw t) := by
  unfold afterExpw
  split <;> exact (insideLoop_uword_iff _ _).mpr (by decide)

theorem insideLoop_afterRound (t : Index) : insideLoop (afterRound t) := by
  unfold afterRound
  split <;> exact (insideLoop_uword_iff _ _).mpr (by decide)

/-! ## The blocks of a run -/

/-- The blocks are there: at least one, all inside `PM`, every byte of them written (R26, R35, R52). -/
structure HasBlocks (s : State) : Prop where
  blocks : 1 ≤ s.nblk.toNat ∧ 64 * s.nblk.toNat ≤ s.cfg.pmCap
  padded : ∀ n < 64 * s.nblk.toNat, (Memory.read s.pm n).isSome = true

/-- The part of the invariant that speaks of the blocks of the run (R25, R26, R35). -/
structure BlockInv (s : State) : Prop where
  hasBlocks : afterPadding s.seq → HasBlocks s
  blkLow : insideLoop s.seq → s.blk.toNat < s.nblk.toNat
  blkEnd : s.seq = seqAsm → s.blk = s.nblk

theorem Inv.blockInv {s : State} (h : Inv s) : BlockInv s :=
  ⟨fun hw => ⟨h.blocks hw, h.padded hw⟩, h.blkLow, h.blkEnd⟩

/-- Outside HINIT to ASM nothing is said of the blocks. -/
theorem BlockInv.of_outside {s : State} (h : ¬ afterPadding s.seq) : BlockInv s where
  hasBlocks hw := absurd hw h
  blkLow hw := absurd hw.afterPadding h
  blkEnd hw := absurd (by rw [hw]; decide) h

theorem BlockInv.of_insideLoop {s : State} (hs : insideLoop s.seq) (hb : HasBlocks s)
    (hlow : s.blk.toNat < s.nblk.toNat) : BlockInv s :=
  ⟨fun _ => hb, fun _ => hlow, fun h => absurd h (ne_seqAsm_of_insideLoop hs)⟩

/-- An instruction inside the block loop whose successor is inside it too, and which touches neither the blocks nor
their count. -/
theorem BlockInv.loop_step {s t : State} (h : BlockInv s) {o : BitVec 4} {u : Index} (hs : s.seq = uword o u)
    (ho : 3 ≤ o.toNat ∧ o.toNat ≤ 8) (ht : insideLoop t.seq) (hblk : t.blk = s.blk) (hnblk : t.nblk = s.nblk)
    (hpm : t.pm = s.pm) (hcfg : t.cfg = s.cfg) : BlockInv t := by
  have hloop : insideLoop s.seq := hs ▸ (insideLoop_uword_iff o u).mpr ho
  obtain ⟨hblocks, hpadded⟩ := h.hasBlocks hloop.afterPadding
  refine .of_insideLoop ht ⟨?_, ?_⟩ ?_
  · rw [hnblk, hcfg]
    exact hblocks
  · rw [hnblk, hpm]
    exact hpadded
  · rw [hblk, hnblk]
    exact h.blkLow hloop

/-- PAD that completes leaves the blocks of the padded message (R100, R101). -/
theorem hasBlocks_padWith {s : State} {m : List Byte} (hlen : m.length < 2 ^ 61)
    (hfits : paddedLength m.length ≤ s.cfg.pmCap) : HasBlocks (padWith m s) := by
  have hnblk : (padWith m s).nblk.toNat = blockCount m.length := toNat_ofNat_of_le_blockCount hlen le_rfl
  refine ⟨?_, fun n hn => ?_⟩
  · rw [hnblk, ← paddedLength_eq_blocks]
    exact ⟨one_le_blockCount _, hfits⟩
  · rw [hnblk, ← paddedLength_eq_blocks] at hn
    rw [padWith_pm_read_below s hn]
    rfl

/-- NEXT goes on with the next block, or to ASM with `BLK` = `NBLK` (R142). -/
theorem blockInv_next {s t : State} (h : BlockInv s) (hs : s.seq = seqNext)
    (ht : t = { s with blk := blkAfterNext s.blk s.nblk, seq := afterNext s.blk s.nblk }) : BlockInv t := by
  have hloop : insideLoop s.seq := by rw [hs]; decide
  have hb : HasBlocks t := by
    obtain ⟨hblocks, hpadded⟩ := h.hasBlocks hloop.afterPadding
    rw [ht]
    exact ⟨hblocks, hpadded⟩
  have hlow : s.blk.toNat + 1 ≤ s.nblk.toNat := h.blkLow hloop
  have hnblk : t.nblk = s.nblk := by rw [ht]
  have hblk : t.blk.toNat = s.blk.toNat + 1 := by
    rw [ht, blkAfterNext_of_le hlow, BitVec.toNat_ofNat, Nat.mod_eq_of_lt (by omega)]
  have hseq : t.seq = if s.blk.toNat + 1 < s.nblk.toNat then seqLdw 0 else seqAsm := by
    rw [ht, ← afterNext_of_le hlow]
  split at hseq
  next hmore => exact .of_insideLoop (by rw [hseq]; decide) hb (by rw [hblk, hnblk]; exact hmore)
  next hlast =>
    refine ⟨fun _ => hb, fun hin => absurd hin (by rw [hseq]; decide), fun _ => BitVec.eq_of_toNat_eq ?_⟩
    rw [hblk, hnblk]
    omega

theorem EngineStepTo.blockInv {s t : State} (hstep : EngineStepTo s t) (h : BlockInv s) : BlockInv t := by
  cases hstep with
  | standing _ => exact h
  | padTooLong _ _ | padTooBig _ _ _ | reserved _ => exact .of_outside (by rw [faultEntry_seq]; decide)
  | pad m _ hlen hfits hm =>
    rw [← (Memory.readBytes_eq_ok.mp hm).1] at hlen hfits
    exact ⟨fun _ => hasBlocks_padWith hlen hfits, fun hin => absurd hin (by rw [padWith_seq]; decide),
      fun hin => absurd hin (by rw [padWith_seq]; decide)⟩
  | hinit hs =>
    obtain ⟨hblocks, hpadded⟩ := h.hasBlocks (by rw [hs]; decide)
    exact .of_insideLoop (by decide : insideLoop (seqLdw 0)) ⟨hblocks, hpadded⟩ hblocks.1
  | ldw n _ hs _ _ => exact h.loop_step hs (by decide) (insideLoop_afterLdw n) rfl rfl rfl rfl
  | expw n hs _ => exact h.loop_step hs (by decide) (insideLoop_afterExpw n) rfl rfl rfl rfl
  | rinit hs => exact h.loop_step hs (by decide) (by decide : insideLoop (seqRound 0)) rfl rfl rfl rfl
  | round n hs => exact h.loop_step hs (by decide) (insideLoop_afterRound n) rfl rfl rfl rfl
  | ffwd hs => exact h.loop_step hs (by decide) (by decide : insideLoop seqNext) rfl rfl rfl rfl
  | next hs => exact blockInv_next h hs rfl
  | asm _ => exact .of_outside (by decide : ¬ afterPadding seqFin)

/-- `MSG` and the list of moves play no part. -/
theorem BlockInv.with_msg_inputs {s : State} (h : BlockInv s) (msg : Memory) (inputs : List Move) :
    BlockInv { s with msg := msg, inputs := inputs } :=
  ⟨fun hw => ⟨(h.hasBlocks hw).blocks, (h.hasBlocks hw).padded⟩, h.blkLow, h.blkEnd⟩

theorem StepTo.blockInv {s t : State} (hstep : StepTo s t) (h : BlockInv s) : BlockInv t := by
  cases hstep with
  | engine _ ht => exact ht.blockInv (h.with_msg_inputs s.msg _)
  | start _ _ _ => exact .of_outside (by decide : ¬ afterPadding seqPad)
  | rst _ => exact .of_outside (by decide : ¬ afterPadding seqWait)
  | ignored _ _ | read _ => exact h.with_msg_inputs s.msg _
  | putMsg _ _ _ _ => exact h.with_msg_inputs _ _

/-! ## The two memories (R50, R52) -/

/-- `PM` and `MSG` are in canonical form and have no byte outside their address spaces. -/
structure MemoryInv (s : State) : Prop where
  pmForm : Memory.wf s.pm
  pmSpace : Memory.below s.cfg.pmCap s.pm
  msgForm : Memory.wf s.msg
  msgSpace : Memory.below (2 ^ 64) s.msg

theorem Inv.memoryInv {s : State} (h : Inv s) : MemoryInv s := ⟨h.pmForm, h.pmSpace, h.msgForm, h.msgSpace⟩

theorem EngineStepTo.memoryInv {s t : State} (hstep : EngineStepTo s t) (h : MemoryInv s) : MemoryInv t := by
  obtain ⟨hform, hspace, hmsgForm, hmsgSpace⟩ := h
  cases hstep with
  | pad m _ _ hfits hm =>
    obtain ⟨hlength, _⟩ := Memory.readBytes_eq_ok.mp hm
    refine ⟨Memory.wf_writeBytes hform 0 _, Memory.below_writeBytes hspace _ ?_, hmsgForm, hmsgSpace⟩
    rw [Nat.zero_add, paddedBytes_length, hlength]
    exact hfits
  | _ => exact ⟨hform, hspace, hmsgForm, hmsgSpace⟩

theorem StepTo.memoryInv {s t : State} (hstep : StepTo s t) (h : MemoryInv s) : MemoryInv t := by
  obtain ⟨hform, hspace, hmsgForm, hmsgSpace⟩ := h
  cases hstep with
  | engine _ ht => exact ht.memoryInv ⟨hform, hspace, hmsgForm, hmsgSpace⟩
  | start _ _ _ | ignored _ _ | read _ => exact ⟨hform, hspace, hmsgForm, hmsgSpace⟩
  | rst _ => exact ⟨.nil, List.forall_mem_nil _, hmsgForm, hmsgSpace⟩
  | putMsg a b _ _ =>
    exact ⟨hform, hspace, Memory.wf_write hmsgForm a.toNat b, Memory.below_write hmsgSpace b a.isLt⟩

/-! ## The whole invariant -/

theorem EngineStepTo.cfg_eq {s t : State} (h : EngineStepTo s t) : t.cfg = s.cfg := by
  cases h <;> rfl

theorem StepTo.cfg_eq {s t : State} (h : StepTo s t) : t.cfg = s.cfg := by
  cases h with
  | engine _ ht => exact ht.cfg_eq
  | _ => rfl

/-- Settles O38: `SEQ` is WAIT, both memories are empty, and PM_CAP is 128. -/
theorem invariantAtReset : Obligations.InvariantAtReset := by
  unfold Obligations.InvariantAtReset
  obtain ⟨hhasBlocks, hlow, hend⟩ : BlockInv State.reset := .of_outside (by decide : ¬ afterPadding seqWait)
  exact
    { legal := legalWord_uword_zero (by decide)
      cap := by decide
      err := errNonzeroExactlyInFault.1
      pmForm := .nil
      pmSpace := List.forall_mem_nil _
      msgForm := .nil
      msgSpace := List.forall_mem_nil _
      blocks := fun hw => (hhasBlocks hw).blocks
      padded := fun hw => (hhasBlocks hw).padded
      blkLow := hlow
      blkEnd := hend }

/-- Settles O39: the legal word, `ERR`, the memories and the blocks are kept each by itself, case by case of the step. -/
theorem everyStepKeepsInvariant : Obligations.EveryStepKeepsInvariant := by
  unfold Obligations.EveryStepKeepsInvariant
  intro s t h hnext
  have hstep : StepTo s t := step_eq_next hnext
  obtain ⟨hpmForm, hpmSpace, hmsgForm, hmsgSpace⟩ := hstep.memoryInv h.memoryInv
  obtain ⟨hhasBlocks, hlow, hend⟩ := hstep.blockInv h.blockInv
  exact
    { legal := hstep.legalWord_seq h.legal
      cap := hstep.cfg_eq ▸ h.cap
      err := (errNonzeroExactlyInFault.2 s t hnext).1 h.err
      pmForm := hpmForm
      pmSpace := hpmSpace
      msgForm := hmsgForm
      msgSpace := hmsgSpace
      blocks := fun hw => (hhasBlocks hw).blocks
      padded := fun hw => (hhasBlocks hw).padded
      blkLow := hlow
      blkEnd := hend }

end Sys2Proof.Machine
end

section
/-! PROOFS. Where the Engine's step stops (20_memory R51, R52; 10_state R29, R35): the two stops, and that the invariant
leaves PAD's alone. -/

namespace Sys2Proof.Machine

/-! ## The stops of PAD and LDW, by name -/

/-- Settles O10: both tests of PAD pass, and the read of the message stops at its lowest absent byte. -/
theorem padIsStuckWithoutMessageByte : Obligations.PadIsStuckWithoutMessageByte := by
  unfold Obligations.PadIsStuckWithoutMessageByte
  intro s a hlen hfits ha hnone hbelow
  have hread : s.msg.readBytes 0 s.len.toNat = .error a :=
    Memory.readBytes_eq_error.mpr ⟨Nat.zero_le a, by omega, hnone, fun y _ => hbelow y⟩
  rw [exec_pad, execPad, if_neg (by omega), if_neg (by omega), hread]

theorem exec_ldw_of_readPm_error {s : State} {t : Index} {j : Nat} {f : Fault} (ht : t.toNat < 16) (hj : j < 4)
    (hbefore : ∀ i < j, ldwAddr s.blk t + i < s.cfg.pmCap ∧ (s.pm.read (ldwAddr s.blk t + i)).isSome = true)
    (hf : readPm s (ldwAddr s.blk t + j) = .error f) : exec (.ldw t) s = .fault f := by
  have hread : readPmWord s (ldwAddr s.blk t) = .error f := by
    refine readPmWord_eq_error.mpr ⟨j, hj, fun i hi => ?_, hf⟩
    obtain ⟨hcap, hsome⟩ := hbefore i hi
    obtain ⟨b, hb⟩ := Option.isSome_iff_exists.mp hsome
    exact ⟨b, readPm_eq_ok.mpr ⟨hcap, hb⟩⟩
  simp only [exec, execLdw, if_pos ht, hread]

/-- Settles O15: the first of the four reads that does not answer names the stop. -/
theorem ldwStopsAtFirstAbsentByte : Obligations.LdwStopsAtFirstAbsentByte := by
  unfold Obligations.LdwStopsAtFirstAbsentByte
  intro s t j a ht hj hbefore
  exact ⟨fun hcap hnone => exec_ldw_of_readPm_error ht hj hbefore (readPm_eq_error.mpr (.inl ⟨hcap, hnone, rfl⟩)),
    fun hcap => exec_ldw_of_readPm_error ht hj hbefore (readPm_eq_error.mpr (.inr ⟨hcap, rfl⟩))⟩

/-! ## Everything that can stop the Engine -/

/-- The Engine's step goes on, or stops at PAD or at LDW for want of a byte. -/
theorem engineStep_cases (s : State) :
    (∃ t, engineStep s = .next t) ∨
    (s.seq = seqPad ∧ ∃ a, s.msg.readBytes 0 s.len.toNat = .error a ∧ engineStep s = .fault (.msgAbsent a)) ∨
    (∃ n f, s.seq = seqLdw n ∧ n.toNat < 16 ∧ readPmWord s (ldwAddr s.blk n) = .error f) := by
  cases hlegal : legalWord s.seq with
  | false => exact .inl ⟨_, engineStep_of_reserved hlegal⟩
  | true =>
    obtain ⟨i, hd⟩ := (legalWord_iff_decodes s.seq).mp hlegal
    have hword : encode i = .uop s.seq := encode_of_decode_uop hd
    rw [engineStep_of_decode rfl hd]
    cases i with
    | pad =>
      rw [exec_pad]
      rcases execPad_cases s with ⟨_, heq⟩ | ⟨_, _, heq⟩ | ⟨_, _, ⟨a, hread, heq⟩ | ⟨m, _, heq⟩⟩
      · exact .inl ⟨_, heq⟩
      · exact .inl ⟨_, heq⟩
      · exact .inr (.inl ⟨(CodeWord.uop.inj hword).symm, a, hread, heq⟩)
      · exact .inl ⟨_, heq⟩
    | ldw n =>
      rcases execLdw_cases n s with ⟨_, heq⟩ | ⟨hn, ⟨f, hread, _⟩ | ⟨v, _, heq⟩⟩
      · exact .inl ⟨_, heq⟩
      · exact .inr (.inr ⟨n, f, (CodeWord.uop.inj hword).symm, hn, hread⟩)
      · exact .inl ⟨_, heq⟩
    | expw n => exact .inl ⟨_, exec_expw_of_le (of_decide_eq_true (wellFormed_of_decode_uop hd))⟩
    | start _ => cases hword
    | wait | hinit | rinit | round _ | ffwd | next | asm | fin | fault => exact .inl ⟨_, rfl⟩

/-- Under the invariant LDW finds its four bytes: block `BLK` is one of the blocks of the run (R110). -/
theorem Inv.exists_readPmWord {s : State} (h : Inv s) {n : Index} (hs : s.seq = seqLdw n) (hn : n.toNat < 16) :
    ∃ v, readPmWord s (ldwAddr s.blk n) = .ok v := by
  have hloop : insideLoop s.seq := hs ▸ (insideLoop_uword_iff 3 n).mpr (by decide)
  have hblk := h.blkLow hloop
  obtain ⟨_, hcap⟩ := h.blocks hloop.afterPadding
  have hbyte : ∀ j < 4, ∃ b, s.pm.read (ldwAddr s.blk n + j) = some b := fun j hj =>
    Option.isSome_iff_exists.mp (h.padded hloop.afterPadding _ (by rw [ldwAddr]; omega))
  obtain ⟨b0, h0⟩ := hbyte 0 (by decide)
  obtain ⟨b1, h1⟩ := hbyte 1 (by decide)
  obtain ⟨b2, h2⟩ := hbyte 2 (by decide)
  obtain ⟨b3, h3⟩ := hbyte 3 (by decide)
  exact ⟨_, readPmWord_of_reads (by rw [ldwAddr]; omega) h0 h1 h2 h3⟩

theorem Inv.engineStep_completes_or_stuck {s : State} (h : Inv s) :
    (∃ t, engineStep s = .next t) ∨
    (∃ a, s.seq = seqPad ∧ a < s.len.toNat ∧ s.msg.read a = none ∧ engineStep s = .fault (.msgAbsent a)) := by
  rcases engineStep_cases s with hnext | ⟨hs, a, hread, heq⟩ | ⟨n, f, hs, hn, hread⟩
  · exact .inl hnext
  · obtain ⟨_, ha, hnone, _⟩ := Memory.readBytes_eq_error.mp hread
    exact .inr ⟨a, hs, by omega, hnone, heq⟩
  · obtain ⟨v, hv⟩ := h.exists_readPmWord hs hn
    cases hread.symm.trans hv

/-- The invariant does not speak of the moves still to come. -/
theorem Inv.takeMove {s : State} (h : Inv s) : Inv (takeMove s) := { h with }

/-- Settles O40: the Engine's move is its step on a state that meets the invariant too. -/
theorem engineStopsOnlyForMissingMessage : Obligations.EngineStopsOnlyForMissingMessage := by
  unfold Obligations.EngineStopsOnlyForMissingMessage
  intro s h hmove
  have hstep : step s = engineStep (takeMove s) := by rw [step, hmove, performMove]
  rw [hstep]
  exact h.takeMove.engineStep_completes_or_stuck

/-! ## BUSY and the Engine's step (R29) -/

theorem idle_eq_true_iff (s : State) : idle s = true ↔ s.seq = seqWait := beq_iff_eq

theorem done_eq_true_iff (s : State) : done s = true ↔ s.seq = seqFin := beq_iff_eq

theorem faulted_eq_true_iff (s : State) : faulted s = true ↔ s.seq = seqFault := beq_iff_eq

/-- One of the four conditions holds, and only one: BUSY is that none of the three words stands in `SEQ`. -/
theorem flags_count (s : State) : [idle s, busy s, done s, faulted s].count true = 1 := by
  cases hbusy : busy s with
  | false =>
    rcases seq_of_not_busy hbusy with hs | hs | hs <;> rw [idle, done, faulted, hs] <;> decide
  | true =>
    obtain ⟨hwait, hfin, hfault⟩ := (busy_eq_true_iff s).mp hbusy
    simp [idle, done, faulted, hwait, hfin, hfault]

theorem uword_ne_of_opc_ne {o p : BitVec 4} (h : o ≠ p) (t u : Index) : uword o t ≠ uword p u :=
  fun e => h (uword_inj.mp e).1

/-- A busy Engine leaves the word it stands at: each row of the sequencer has another word as its successor. -/
theorem EngineStepTo.seq_ne {s t : State} (h : EngineStepTo s t) (hbusy : busy s = true) : t.seq ≠ s.seq := by
  obtain ⟨hwait, hfin, hfault⟩ := (busy_eq_true_iff s).mp hbusy
  cases h with
  | standing hs => exact absurd hs (not_or.mpr ⟨hwait, not_or.mpr ⟨hfin, hfault⟩⟩)
  | padTooLong _ _ | padTooBig _ _ _ | reserved _ => exact hfault.symm
  | pad _ hs _ _ _ | hinit hs | rinit hs | ffwd hs | asm hs =>
    rw [hs]
    exact uword_ne_of_opc_ne (by decide) _ _
  | ldw n _ hs hn _ =>
    refine BitVec.toNat_ne.mpr ?_
    rw [hs, afterLdw_toNat, seqLdw_toNat]
    split <;> omega
  | expw n hs _ =>
    refine BitVec.toNat_ne.mpr ?_
    rw [hs, afterExpw_toNat, seqExpw_toNat]
    have hn := n.isLt
    split <;> omega
  | round n hs =>
    refine BitVec.toNat_ne.mpr ?_
    rw [hs, afterRound_toNat, seqRound_toNat]
    have hn := n.isLt
    split <;> omega
  | next hs =>
    rw [hs]
    change afterNext s.blk s.nblk ≠ seqNext
    rcases afterNext_cases s.blk s.nblk with hn | hn <;> rw [hn] <;> exact uword_ne_of_opc_ne (by decide) _ _

/-- Settles O33: the flags by the word in `SEQ`; a busy step moves `SEQ` on, or is PAD's stop. -/
theorem busyExactlyWhenEngineHasStep : Obligations.BusyExactlyWhenEngineHasStep := by
  unfold Obligations.BusyExactlyWhenEngineHasStep
  rw [← seqWait_eq, ← seqFin_eq, ← seqFault_eq, ← seqPad_eq]
  intro s
  have hmoves : busy s = true → ∀ t, engineStep s = .next t → t.seq ≠ s.seq :=
    fun hbusy t h => (engineStep_eq_next h).seq_ne hbusy
  refine ⟨idle_eq_true_iff s, done_eq_true_iff s, faulted_eq_true_iff s, busy_eq_true_iff s, flags_count s,
    engineStep_of_not_busy, hmoves, fun hinv hbusy => ?_⟩
  exact hinv.engineStep_completes_or_stuck.imp (fun ⟨t, ht⟩ => ⟨t, ht, hmoves hbusy t ht⟩) id

end Sys2Proof.Machine
end

section
/-! PROOFS. The table of 10_state R36 and the owner column of R20: what each instruction writes, what it reads, and which
move changes which piece of state. -/

namespace Sys2Proof.Machine

/-! ## The write column (R36) -/

theorem exec_ldw (n : Index) (s : State) : exec (.ldw n) s = execLdw n s := rfl

theorem exec_expw_of_lt {s : State} {n : Index} (h : n.toNat < 16) :
    exec (.expw n) s = .next (faultEntry .illegalUop s) := by
  simp only [exec, execExpw, if_neg (Nat.not_le.mpr h), raise_eq]

/-- A write of `W[n]` and `SEQ` leaves the rest of the state and the other 63 words. -/
theorem setW_frame (s : State) (n : Index) (v : Word) (q : UWord) :
    { setW s n v with seq := q } = { s with w := (setW s n v).w, seq := q } ∧
      ∀ j < 64, j ≠ n.toNat → (setW s n v).w[j]! = s.w[j]! :=
  ⟨rfl, fun j _ hj => by rw [setW_eq]; exact set!_getElem!_other s.w v hj⟩

theorem exec_pad_frame {s t : State} (h : exec .pad s = .next t) :
    (t = { s with pm := t.pm, nblk := t.nblk, seq := t.seq } ∧
      ∀ a, paddedLength s.len.toNat ≤ a → t.pm.read a = s.pm.read a) ∨
    t = { s with err := t.err, seq := t.seq } := by
  rw [exec_pad] at h
  rcases execPad_cases s with ⟨_, heq⟩ | ⟨_, _, heq⟩ | ⟨_, _, ⟨a, _, heq⟩ | ⟨m, hm, heq⟩⟩ <;>
    rw [heq] at h <;> cases h
  · exact .inr rfl
  · exact .inr rfl
  · rw [← (Memory.readBytes_eq_ok.mp hm).1]
    exact .inl ⟨rfl, fun a => padWith_pm_read_above s⟩

theorem exec_ldw_frame {s t : State} {n : Index} (h : exec (.ldw n) s = .next t) :
    (t = { s with w := t.w, seq := t.seq } ∧ ∀ j < 64, j ≠ n.toNat → t.w[j]! = s.w[j]!) ∨
    (16 ≤ n.toNat ∧ t = { s with err := t.err, seq := t.seq }) := by
  rw [exec_ldw] at h
  rcases execLdw_cases n s with ⟨hn, heq⟩ | ⟨_, ⟨f, _, heq⟩ | ⟨v, _, heq⟩⟩ <;> rw [heq] at h <;> cases h
  · exact .inr ⟨hn, rfl⟩
  · exact .inl (setW_frame s n v _)

theorem exec_expw_frame {s t : State} {n : Index} (h : exec (.expw n) s = .next t) :
    (t = { s with w := t.w, seq := t.seq } ∧ ∀ j < 64, j ≠ n.toNat → t.w[j]! = s.w[j]!) ∨
    (n.toNat < 16 ∧ t = { s with err := t.err, seq := t.seq }) := by
  rcases Nat.lt_or_ge n.toNat 16 with hn | hn
  · rw [exec_expw_of_lt hn] at h
    cases h
    exact .inr ⟨hn, rfl⟩
  · rw [exec_expw_of_le hn] at h
    cases h
    exact .inl (setW_frame s n _ _)

theorem exec_start_frame {s t : State} {len : Quad} (h : exec (.start len) s = .next t) :
    t = { s with len := t.len, seq := t.seq } := by
  rw [show exec (.start len) s = execStart len s from rfl] at h
  rcases execStart_cases len s with ⟨_, heq⟩ | ⟨_, _, heq⟩ <;> rw [heq] at h <;> cases h <;> rfl

/-- Settles O26: row by row of the write column; the rows with more than one outcome have lemmas of their own. -/
theorem writesStayInTheirRow : Obligations.WritesStayInTheirRow := by
  unfold Obligations.WritesStayInTheirRow
  intro i s t h
  cases i with
  | pad => exact exec_pad_frame h
  | ldw n => exact exec_ldw_frame h
  | expw n => exact exec_expw_frame h
  | start len => exact exec_start_frame h
  | wait | hinit | rinit | round _ | ffwd | next | asm | fin | fault => cases h; rfl

/-! ## The read column (R36) -/

/-- PAD reads `LEN`, `PM_CAP` and the message bytes below `LEN`: they decide which of its cases it is, and the bytes. -/
theorem pad_outcomesAgree {s u : State} (h : readsAgree .pad s u) : outcomesAgree .pad s (exec .pad s) (exec .pad u) := by
  obtain ⟨hlen, hcfg, hmsg⟩ := h
  have hread : u.msg.readBytes 0 u.len.toNat = s.msg.readBytes 0 s.len.toNat := by
    rw [← hlen]
    exact Memory.readBytes_congr fun n _ hn => (hmsg n (by omega)).symm
  rw [exec_pad, exec_pad]
  rcases execPad_cases s with ⟨hlong, heq⟩ | ⟨hshort, hbig, heq⟩ | ⟨hshort, hfits, ⟨a, hm, heq⟩ | ⟨m, hm, heq⟩⟩ <;>
    rw [heq]
  · rw [execPad_of_tooLong (hlen ▸ hlong)]
    exact ⟨rfl, fun _ => rfl, fun hseq => absurd hseq (by rw [faultEntry_seq]; decide)⟩
  · rw [execPad_of_tooBig (hlen ▸ hshort) (hlen ▸ hcfg ▸ hbig)]
    exact ⟨rfl, fun _ => rfl, fun hseq => absurd hseq (by rw [faultEntry_seq]; decide)⟩
  all_goals
    rw [execPad, hread, hm, if_neg (by rw [← hlen]; omega), if_neg (by rw [← hlen, ← hcfg]; omega)]
  · rfl
  · have hlength : m.length = s.len.toNat := (Memory.readBytes_eq_ok.mp hm).1
    refine ⟨rfl, fun hseq => absurd hseq (by rw [padWith_seq]; decide), fun _ => ⟨rfl, fun n hn => ?_⟩⟩
    rw [padWith_nblk, toNat_ofNat_of_le_blockCount (hlength ▸ hshort) le_rfl, ← paddedLength_eq_blocks] at hn
    rw [padWith_pm_read_below s hn, padWith_pm_read_below u hn]

/-- LDW reads `BLK` and four bytes of `PM`, each with whether its address exists. -/
theorem ldw_outcomesAgree {s u : State} {n : Index} (hn : n.toNat < 16) (h : readsAgree (.ldw n) s u) :
    outcomesAgree (.ldw n) s (exec (.ldw n) s) (exec (.ldw n) u) := by
  obtain ⟨hblk, hbytes⟩ := h
  have hread : readPmWord u (ldwAddr u.blk n) = readPmWord s (ldwAddr s.blk n) := by
    rw [← hblk]
    exact readPmWord_congr fun j hj => (readPm_congr (hbytes j hj).1 (hbytes j hj).2).symm
  simp only [exec_ldw, execLdw, if_pos hn, hread]
  cases readPmWord s (ldwAddr s.blk n) with
  | error f => rfl
  | ok v => exact ⟨rfl, by rw [← getW_eq, ← getW_eq]; exact (getW_setW_same s n v).trans (getW_setW_same u n v).symm⟩

/-- EXPW reads four words of the schedule. -/
theorem expw_outcomesAgree {s u : State} {n : Index} (hn : 16 ≤ n.toNat) (h : readsAgree (.expw n) s u) :
    outcomesAgree (.expw n) s (exec (.expw n) s) (exec (.expw n) u) := by
  obtain ⟨h2, h7, h15, h16⟩ := h
  have hvalue : expwValue u n = expwValue s n := by rw [expwValue_eq s hn, expwValue_eq u hn, h2, h7, h15, h16]
  rw [exec_expw_of_le hn, exec_expw_of_le hn, hvalue]
  refine ⟨rfl, ?_⟩
  rw [← getW_eq, ← getW_eq]
  exact (getW_setW_same s n _).trans (getW_setW_same u n _).symm

/-- START reads `SEQ`, which decides whether it is accepted. -/
theorem start_outcomesAgree {s u : State} {len : Quad} (h : s.seq = u.seq) :
    outcomesAgree (.start len) s (exec (.start len) s) (exec (.start len) u) := by
  by_cases hs : s.seq = seqWait ∨ s.seq = seqFin
  · rw [exec_start_of_wait_or_fin hs, exec_start_of_wait_or_fin (h ▸ hs)]
    exact ⟨rfl, fun _ => rfl⟩
  · obtain ⟨hwait, hfin⟩ := not_or.mp hs
    rw [exec_start_of_ne hwait hfin, exec_start_of_ne (h ▸ hwait) (h ▸ hfin)]
    exact ⟨h, fun hin => absurd hin hs⟩

/-- Settles O27: row by row of the read column; what is written is a function of what the row reads. -/
theorem readsStayInTheirRow : Obligations.ReadsStayInTheirRow := by
  unfold Obligations.ReadsStayInTheirRow
  intro i s u hwf h
  cases i with
  | wait | fin | fault => trivial
  | hinit => exact ⟨rfl, rfl, rfl⟩
  | pad => exact pad_outcomesAgree h
  | ldw n => exact ldw_outcomesAgree (of_decide_eq_true hwf) h
  | expw n => exact expw_outcomesAgree (of_decide_eq_true hwf) h
  | rinit => exact ⟨rfl, h⟩
  | round n =>
    obtain ⟨hr, hw⟩ := h
    rw [exec_round, exec_round, getW_eq, getW_eq, hr, hw]
    exact ⟨rfl, rfl⟩
  | ffwd =>
    obtain ⟨hh, hr⟩ := h
    rw [exec_ffwd, exec_ffwd, hh, hr]
    exact ⟨rfl, rfl⟩
  | next =>
    obtain ⟨hblk, hnblk⟩ := h
    exact ⟨congrArg₂ afterNext hblk hnblk, congrArg₂ blkAfterNext hblk hnblk⟩
  | asm => exact ⟨rfl, congrArg serialise h⟩
  | start len => exact start_outcomesAgree h

/-! ## The owner column (R20): the Engine's instructions -/

section Owners

variable {s t : State} (h : EngineStepTo s t)

include h

theorem EngineStepTo.owner_h (hne : t.h ≠ s.h) : s.seq = seqHinit ∨ s.seq = seqFfwd := by
  cases h with
  | hinit hs => exact .inl hs
  | ffwd hs => exact .inr hs
  | _ => exact absurd rfl hne

theorem EngineStepTo.owner_r (hne : t.r ≠ s.r) : s.seq = seqRinit ∨ ∃ n, s.seq = seqRound n := by
  cases h with
  | rinit hs => exact .inl hs
  | round n hs => exact .inr ⟨n, hs⟩
  | _ => exact absurd rfl hne

theorem EngineStepTo.owner_w (hne : t.w ≠ s.w) :
    (∃ n : Index, n.toNat < 16 ∧ s.seq = seqLdw n) ∨ ∃ n : Index, 16 ≤ n.toNat ∧ s.seq = seqExpw n := by
  cases h with
  | ldw n _ hs hn _ => exact .inl ⟨n, hn, hs⟩
  | expw n hs hn => exact .inr ⟨n, hn, hs⟩
  | _ => exact absurd rfl hne

theorem EngineStepTo.owner_blk (hne : t.blk ≠ s.blk) : s.seq = seqHinit ∨ s.seq = seqNext := by
  cases h with
  | hinit hs => exact .inl hs
  | next hs => exact .inr hs
  | _ => exact absurd rfl hne

theorem EngineStepTo.owner_nblk (hne : t.nblk ≠ s.nblk) : s.seq = seqPad := by
  cases h with
  | pad _ hs _ _ _ => exact hs
  | _ => exact absurd rfl hne

theorem EngineStepTo.owner_pm (hne : t.pm ≠ s.pm) : s.seq = seqPad := by
  cases h with
  | pad _ hs _ _ _ => exact hs
  | _ => exact absurd rfl hne

theorem EngineStepTo.owner_err (hne : t.err ≠ s.err) : t.seq = seqFault := by
  cases h with
  | padTooLong _ _ | padTooBig _ _ _ | reserved _ => rfl
  | _ => exact absurd rfl hne

theorem EngineStepTo.owner_digest (hne : t.digest ≠ s.digest) : s.seq = seqAsm := by
  cases h with
  | asm hs => exact hs
  | _ => exact absurd rfl hne

theorem EngineStepTo.len_eq : t.len = s.len := by cases h <;> rfl

theorem EngineStepTo.msg_eq : t.msg = s.msg := by cases h <;> rfl

end Owners

/-! ## The owner column: every move -/

/-- A move that is neither the Engine's nor reset writes `SEQ`, `LEN`, `MSG` and the list of moves at most. -/
theorem StepTo.engine_or_rst_or_frame {s t : State} (h : StepTo s t) :
    (nextMove s = .engine ∧ EngineStepTo (takeMove s) t) ∨ nextMove s = .rst ∨
      t = { s with seq := t.seq, len := t.len, msg := t.msg, inputs := t.inputs } := by
  cases h with
  | engine hm ht => exact .inl ⟨hm, ht⟩
  | rst hm => exact .inr (.inl hm)
  | start _ _ _ | ignored _ _ | putMsg _ _ _ _ | read _ => exact .inr (.inr rfl)

/-- A piece `f` of the state outside `SEQ`, `LEN`, `MSG` and the list of moves is changed by reset, or by an Engine move
of which `P` holds if it changes `f`. -/
theorem StepTo.rst_or_engine_of_ne {s t : State} (h : StepTo s t) {α : Type} (f : State → α)
    (hf : ∀ (u : State) (seq : UWord) (len : Quad) (msg : Memory) (inputs : List Move),
      f { u with seq := seq, len := len, msg := msg, inputs := inputs } = f u)
    {P : Prop} (hP : EngineStepTo (takeMove s) t → f t ≠ f (takeMove s) → P) (hne : f t ≠ f s) :
    nextMove s = .rst ∨ (nextMove s = .engine ∧ P) := by
  rcases h.engine_or_rst_or_frame with ⟨hm, ht⟩ | hm | hframe
  · exact .inr ⟨hm, hP ht (hf s s.seq s.len s.msg s.inputs.tail ▸ hne)⟩
  · exact .inl hm
  · rw [hframe, hf] at hne
    exact absurd rfl hne

/-- `SEQ` is the Engine's, but for an accepted START and reset (R140, R180). -/
theorem StepTo.owner_seq {s t : State} (h : StepTo s t) (hne : t.seq ≠ s.seq) :
    nextMove s = .rst ∨ nextMove s = .engine ∨
      ((∃ v, nextMove s = .port (commandWord true v)) ∧ (s.seq = seqWait ∨ s.seq = seqFin) ∧ t.seq = seqPad) := by
  cases h with
  | engine hm _ => exact .inr (.inl hm)
  | rst hm => exact .inl hm
  | start len hm hs => exact .inr (.inr ⟨⟨len, hm⟩, hs, rfl⟩)
  | ignored _ _ | putMsg _ _ _ _ | read _ => exact absurd rfl hne

theorem StepTo.owner_len {s t : State} (h : StepTo s t) (hne : t.len ≠ s.len) :
    nextMove s = .rst ∨ ((∃ v, nextMove s = .port (commandWord true v)) ∧ (s.seq = seqWait ∨ s.seq = seqFin)) := by
  cases h with
  | engine _ ht => exact absurd ht.len_eq hne
  | rst hm => exact .inl hm
  | start len hm hs => exact .inr ⟨⟨len, hm⟩, hs⟩
  | ignored _ _ | putMsg _ _ _ _ | read _ => exact absurd rfl hne

theorem StepTo.owner_msg {s t : State} (h : StepTo s t) (hne : t.msg ≠ s.msg) :
    (∃ a b, nextMove s = .putMsg a b) ∧ busy s = false := by
  cases h with
  | engine _ ht => exact absurd ht.msg_eq hne
  | putMsg a b hm hbusy => exact ⟨⟨a, b, hm⟩, hbusy⟩
  | start _ _ _ | ignored _ _ | rst _ | read _ => exact absurd rfl hne

/-- Settles O28: the Engine's part of each row by the instruction that owns the piece; START and the write of `MSG` are
the two moves of the Host that write one. -/
theorem onlyOwnersWrite : Obligations.OnlyOwnersWrite := by
  unfold Obligations.OnlyOwnersWrite
  intro s t hnext
  have h : StepTo s t := step_eq_next hnext
  refine ⟨?h, ?r, ?w, h.owner_seq, ?blk, ?nblk, h.owner_len, ?err, ?digest, ?pm, h.owner_msg, h.cfg_eq⟩
  case h => exact h.rst_or_engine_of_ne State.h (fun _ _ _ _ _ => rfl) EngineStepTo.owner_h
  case blk => exact h.rst_or_engine_of_ne State.blk (fun _ _ _ _ _ => rfl) EngineStepTo.owner_blk
  case nblk => exact h.rst_or_engine_of_ne State.nblk (fun _ _ _ _ _ => rfl) EngineStepTo.owner_nblk
  case err => exact h.rst_or_engine_of_ne State.err (fun _ _ _ _ _ => rfl) EngineStepTo.owner_err
  case digest => exact h.rst_or_engine_of_ne State.digest (fun _ _ _ _ _ => rfl) EngineStepTo.owner_digest
  case pm => exact h.rst_or_engine_of_ne State.pm (fun _ _ _ _ _ => rfl) EngineStepTo.owner_pm
  case r =>
    refine h.rst_or_engine_of_ne State.r (fun _ _ _ _ _ => rfl) fun ht hne => ?_
    rcases ht.owner_r hne with hs | ⟨n, hs⟩
    · exact .inl hs
    · have hword : s.seq.toNat = 0x180 + n.toNat := by rw [← takeMove_seq, hs, seqRound_toNat]
      exact .inr (by omega)
  case w =>
    refine h.rst_or_engine_of_ne State.w (fun _ _ _ _ _ => rfl) fun ht hne => ?_
    rcases ht.owner_w hne with ⟨n, hn, hs⟩ | ⟨n, hn, hs⟩
    · have hword : s.seq.toNat = 0x0C0 + n.toNat := by rw [← takeMove_seq, hs, seqLdw_toNat]
      exact .inl (by omega)
    · have hword : s.seq.toNat = 0x100 + n.toNat := by rw [← takeMove_seq, hs, seqExpw_toNat]
      exact .inr (by omega)

end Sys2Proof.Machine
end

section
/-! PROOFS. The two tables of constants (20_memory R62, R63; 93_implementation_defined G3): the fractional parts of the
roots of the first primes. -/

namespace Sys2Proof.Machine

/-- The first 64 primes. -/
def firstPrimes : List Nat :=
  [2, 3, 5, 7, 11, 13, 17, 19, 23, 29, 31, 37, 41, 43, 47, 53, 59, 61, 67, 71, 73, 79, 83, 89, 97, 101, 103, 107, 109,
   113, 127, 131, 137, 139, 149, 151, 157, 163, 167, 173, 179, 181, 191, 193, 197, 199, 211, 223, 227, 229, 233, 239,
   241, 251, 257, 263, 269, 271, 277, 281, 283, 293, 307, 311]

theorem firstPrimes_prime : ∀ t < 64, (firstPrimes.getD t 0).Prime := by
  decide +kernel

/-- No prime is left out: entry `t` has exactly `t` primes below it. -/
theorem firstPrimes_primesBelow_card : ∀ t < 64, (firstPrimes.getD t 0).primesBelow.card = t := by
  decide +kernel

/-- `KROM` against the integer cube roots of `p · 2^96`, whose low 32 bits are the fraction's first 32 bits. -/
theorem krom_toNat_eq_nthRoot : ∀ t < 64, krom[t]!.toNat = Nat.nthRoot 3 (firstPrimes.getD t 0 * 2 ^ 96) % 2 ^ 32 := by
  decide +kernel

/-- `IVROM` against the integer square roots of `p · 2^64`. -/
theorem ivrom_toNat_eq_nthRoot : ∀ j < 8, ivrom[j]!.toNat = Nat.nthRoot 2 (firstPrimes.getD j 0 * 2 ^ 64) % 2 ^ 32 := by
  decide +kernel

/-- Settles O46: the prime from the table of the first primes, the root from the library's integer root. -/
theorem romWordsArePrimeRoots : Obligations.RomWordsArePrimeRoots := by
  unfold Obligations.RomWordsArePrimeRoots
  refine ⟨fun t ht => ?_, fun j hj => ?_⟩
  · exact ⟨_, _, firstPrimes_prime t ht, firstPrimes_primesBelow_card t ht, Nat.pow_nthRoot_le (.inl three_ne_zero),
      Nat.lt_pow_nthRoot_add_one three_ne_zero _, krom_toNat_eq_nthRoot t ht⟩
  · have ht : j < 64 := by omega
    exact ⟨_, _, firstPrimes_prime j ht, firstPrimes_primesBelow_card j ht, Nat.pow_nthRoot_le (.inl two_ne_zero),
      Nat.lt_pow_nthRoot_add_one two_ne_zero _, ivrom_toNat_eq_nthRoot j hj⟩

end Sys2Proof.Machine
end

section
/-! PROOFS. The schedule as a function (41_schedule R112): each word is the one that follows the words before it. -/

namespace Sys2Proof.Machine

theorem schedulePrefix_length (blk : List Byte) (n : Nat) : (schedulePrefix blk n).length = n := by
  induction n with
  | zero => rfl
  | succ n ih => rw [schedulePrefix, List.length_append, ih, List.length_singleton]

/-- A word of the schedule stays as it is while more words are appended. -/
theorem schedulePrefix_getElem? (blk : List Byte) {n j : Nat} (hj : j < n) :
    (schedulePrefix blk n)[j]? = some (scheduleNext blk (schedulePrefix blk j)) := by
  induction n with
  | zero => omega
  | succ n ih =>
    rw [schedulePrefix]
    rcases Nat.lt_succ_iff_lt_or_eq.mp hj with hlt | rfl
    · rw [List.getElem?_append_left (by rwa [schedulePrefix_length]), ih hlt]
    · rw [List.getElem?_append_right (by rw [schedulePrefix_length]), schedulePrefix_length, Nat.sub_self]
      rfl

theorem schedule_getElem! (blk : List Byte) {t : Nat} (ht : t < 64) :
    (schedule blk)[t]! = scheduleNext blk (schedulePrefix blk t) := by
  rw [schedule, List.getElem!_eq_getElem?_getD, schedulePrefix_getElem? blk ht, Option.getD_some]

theorem schedulePrefix_getD (blk : List Byte) {n j : Nat} (hj : j < n) (hn : n ≤ 64) :
    (schedulePrefix blk n).getD j 0 = (schedule blk)[j]! := by
  rw [List.getD_eq_getElem?_getD, schedulePrefix_getElem? blk hj, Option.getD_some,
    schedule_getElem! blk (Nat.lt_of_lt_of_le hj hn)]

/-- Settles O47: the two branches of `scheduleNext`, on the words before. -/
theorem scheduleEquations : Obligations.ScheduleEquations := by
  unfold Obligations.ScheduleEquations
  refine fun blk => ⟨schedulePrefix_length blk 64, fun t ht => ?_, fun t hlow ht => ?_⟩
  · rw [schedule_getElem! blk (by omega), scheduleNext, schedulePrefix_length, if_pos ht]
  · have hle : t ≤ 64 := ht.le
    rw [schedule_getElem! blk ht, scheduleNext, schedulePrefix_length, if_neg (by omega),
      schedulePrefix_getD blk (by omega) hle, schedulePrefix_getD blk (by omega) hle,
      schedulePrefix_getD blk (by omega) hle, schedulePrefix_getD blk (by omega) hle, expandWord]

end Sys2Proof.Machine
end

section
/-! PROOFS. What the Host sees of a run (44_orchestration R148, R149, 10_state R33): a function of the message, its length
and PM_CAP. -/

namespace Sys2Proof.Machine

/-! ## A run that faults (R149, R164) -/

/-- The state in which an accepted START leaves the Engine: at PAD, with no move to come. -/
def started (s : State) (len : Quad) : State := { s with inputs := [], len := len, seq := seqPad }

theorem step_started {s : State} {len : Quad} (hseq : s.seq = seqWait ∨ s.seq = seqFin)
    (hin : s.inputs = [.port (commandWord true len)]) : step s = .next (started s len) :=
  step_start hseq hin

theorem step_of_started (s : State) (len : Quad) : step (started s len) = execPad (started s len) :=
  step_eq_exec (i := .pad) rfl decode_seqPad

/-- Settles O51: START, then PAD's first or second test. -/
theorem faultingRunTakesOneStep : Obligations.FaultingRunTakesOneStep := by
  unfold Obligations.FaultingRunTakesOneStep
  intro s len hseq hin
  have hrun {t : State} (hpad : execPad (started s len) = .next t) : Host.Core.run core 2 s = .next t := by
    rw [run_succ_of_step (step_started hseq hin), run_one_of_step ((step_of_started s len).trans hpad)]
  exact ⟨fun hlong => hrun (execPad_of_tooLong hlong), fun hlen hbig => hrun (execPad_of_tooBig hlen hbig)⟩

/-! ## The view of the Host (R150) -/

/-- What the Host sees while the Engine is busy without a fault. -/
def busyView : HostView := { status := 0b0001, digest := none }

/-- What the Host sees of a fault. -/
def faultView (code : BitVec 2) : HostView := { status := code ++ 0b00#2, digest := none }

/-- What the Host sees of a finished run. -/
def doneView (digest : Vector Byte 32) : HostView := { status := 0b0010, digest := some digest }

theorem hostView_of_busy {s : State} (h : busy s = true) (herr : s.err = 0) : hostView s = busyView := by
  rw [hostView, statusWord_eq herr ⟨done_of_busy h, h⟩, done_of_busy h]
  rfl

theorem hostView_of_fin {s : State} (h : s.seq = seqFin) (herr : s.err = 0) : hostView s = doneView s.digest := by
  rw [hostView, statusWord_eq herr (flags_of_fin h), (flags_of_fin h).1]
  rfl

theorem hostView_faultEntry (f : FaultCode) (s : State) : hostView (faultEntry f s) = faultView (codeOf f) := by
  rw [hostView, statusWord_eq (faultEntry_err f s) (flags_of_fault rfl), (flags_of_fault (faultEntry_seq f s)).1]
  cases f <;> rfl

theorem outcomeView_of_run {s t : State} {k : Nat} (h : Host.Core.run core k s = .next t) :
    outcomeView (Host.Core.run core k s) = .ok (hostView t) := by
  rw [h]
  rfl

/-! ## The run step by step -/

/-- A run that is busy at its end has not entered a fault, so `ERR` is as it was. -/
theorem err_of_run_busy {s t : State} {k : Nat} (hin : s.inputs = []) (h : Host.Core.run core k s = .next t)
    (hbusy : busy t = true) : t.err = s.err := by
  induction k generalizing s with
  | zero => cases h; rfl
  | succ k ih =>
    obtain ⟨u, hs, hu⟩ := exists_step_of_run_succ h
    have hin' : u.inputs = [] := step_inputs_nil hin hs
    obtain ⟨hmove, htake⟩ := step_of_inputs_nil hin
    rw [step, hmove, htake] at hs
    rcases (engineStep_eq_next hs).keepsFault_or_faultEntered with hkeeps | hfault
    · rw [ih hin' hu, hkeeps.1]
    · have hidle : busy u = false := (flags_of_fault hfault.2).2
      rw [busy_of_run_busy hin' hu hbusy] at hidle
      cases hidle

/-- A run that has come to rest shows the same view from then on. -/
theorem run_of_run_rest {s t : State} {m k : Nat} (h : Host.Core.run core m s = .next t) (hin : t.inputs = [])
    (hrest : busy t = false) (hk : m ≤ k) : Host.Core.run core k s = .next t := by
  obtain ⟨j, rfl⟩ := Nat.exists_eq_add_of_le hk
  rw [run_add_of_run h, run_of_not_busy hin hrest]

theorem run_succ_of_step_fault {s : State} {f : Fault} (h : step s = .fault f) (k : Nat) :
    Host.Core.run core (k + 1) s = .fault f := by
  have hcore : core.step s = .fault f := h
  simp only [Host.Core.run, hcore]

/-! ## The run as the Host sees it -/

/-- The view after `j` steps of a run with the message `m` accepted. -/
def acceptedView (m : List Byte) (j : Nat) : HostView :=
  if j < 3 + 131 * blockCount m.length then busyView else doneView (digestOf m)

/-- The view `j` steps after START, from `PM_CAP`, the length and the read of the message alone: at PAD, then one of its
two faults, its stop, or the run on the message. -/
def runView (cap len : Nat) (message : Except Nat (List Byte)) (j : Nat) : Except (Fault ⊕ Refusal) HostView :=
  if j = 0 then .ok busyView
  else if 2 ^ 61 ≤ len then .ok (faultView 1)
  else if cap < paddedLength len then .ok (faultView 2)
  else
    match message with
    | .error a => .error (.inl (.msgAbsent a))
    | .ok m => .ok (acceptedView m j)

/-- A run on an accepted message is busy for `3 + 131·N` steps and then shows the digest (R147, R149). -/
theorem outcomeView_run_accepted {s : State} {m : List Byte} (hacc : Accepts s m) (hin : s.inputs = [])
    (hseq : s.seq = seqPad) (hlen : s.len.toNat = m.length) (hmsg : ∀ n < m.length, s.msg.read n = m[n]?)
    (herr : s.err = 0) (j : Nat) : outcomeView (Host.Core.run core j s) = .ok (acceptedView m j) := by
  obtain ⟨(t : State), hrun, ht⟩ := run_from_pad hacc hin hseq hlen hmsg
  obtain ⟨hbusy, hasm⟩ := ht.step_asm hin
  unfold acceptedView
  split
  next hj =>
    obtain ⟨u, hu, hbusy'⟩ := busy_during_run hin hrun hbusy (show j ≤ 2 + 131 * blockCount m.length by omega)
    rw [outcomeView_of_run hu, hostView_of_busy hbusy' ((err_of_run_busy hin hu hbusy').trans herr)]
  next hj =>
    have hend : Host.Core.run core (2 + 131 * blockCount m.length + 1) s = _ :=
      (run_add_of_run hrun 1).trans (run_one_of_step hasm)
    have hterr : t.err = 0 := (err_of_run_busy hin hrun hbusy).trans herr
    have htin : t.inputs = [] := by
      obtain ⟨r, w, rfl⟩ := ht
      exact hin
    rw [outcomeView_of_run (run_of_run_rest (k := j) hend htin (flags_of_fin rfl).2 (by omega))]
    exact congrArg Except.ok (hostView_of_fin rfl hterr)

theorem outcomeView_run_fault {s : State} {f : FaultCode} (hin : s.inputs = [])
    (hstep : step s = .next (faultEntry f s)) (j : Nat) :
    outcomeView (Host.Core.run core (j + 1) s) = .ok (faultView (codeOf f)) := by
  rw [outcomeView_of_run (run_of_run_rest (k := j + 1) (run_one_of_step hstep) hin (flags_of_fault rfl).2 (by omega)),
    hostView_faultEntry]

/-- At PAD the four cases of `runView` are those of PAD (R100, R51). -/
theorem outcomeView_run_of_pad {s : State} (hin : s.inputs = []) (hseq : s.seq = seqPad) (herr : s.err = 0) (j : Nat) :
    outcomeView (Host.Core.run core j s) = runView s.cfg.pmCap s.len.toNat (s.msg.readBytes 0 s.len.toNat) j := by
  have hpad : step s = execPad s := step_eq_exec (i := .pad) hin (by rw [hseq, decode_seqPad])
  unfold runView
  cases j with
  | zero => exact congrArg Except.ok (hostView_of_busy ((busy_eq_true_iff s).mpr (by rw [hseq]; decide)) herr)
  | succ j =>
    rw [if_neg (Nat.succ_ne_zero j)]
    rcases execPad_cases s with ⟨hlong, heq⟩ | ⟨hlen, hbig, heq⟩ | ⟨hlen, hfits, ⟨a, hread, heq⟩ | ⟨m, hread, _⟩⟩
    · rw [if_pos hlong, outcomeView_run_fault hin (hpad.trans heq)]
      rfl
    · rw [if_neg (by omega), if_pos hbig, outcomeView_run_fault hin (hpad.trans heq)]
      rfl
    · rw [if_neg (by omega), if_neg (by omega), hread, run_succ_of_step_fault (hpad.trans heq)]
      rfl
    · obtain ⟨hlength, hbytes⟩ := Memory.readBytes_eq_ok.mp hread
      rw [if_neg (by omega), if_neg (by omega), hread]
      rw [← hlength] at hlen hfits hbytes
      exact outcomeView_run_accepted ⟨hlen, hfits⟩ hin hseq hlength.symm
        (fun n hn => by rw [← hbytes n hn, Nat.zero_add]) herr (j + 1)

/-- Settles O52: after START both runs show the view that `runView` gives, from the same arguments. -/
theorem runDependsOnMessageOnly : Obligations.RunDependsOnMessageOnly := by
  unfold Obligations.RunDependsOnMessageOnly
  intro s u len hs hu hserr huerr hsin huin hcfg hmsg k hk
  obtain ⟨j, rfl⟩ := Nat.exists_eq_add_of_le' hk
  have hread : s.msg.readBytes 0 len.toNat = u.msg.readBytes 0 len.toNat :=
    Memory.readBytes_congr fun n _ hn => hmsg n (by omega)
  have hview {v : State} (hv : v.seq = seqWait ∨ v.seq = seqFin) (hverr : v.err = 0)
      (hvin : v.inputs = [.port (commandWord true len)]) :
      outcomeView (Host.Core.run core (j + 1) v) =
        runView v.cfg.pmCap len.toNat (v.msg.readBytes 0 len.toNat) j := by
    rw [run_succ_of_step (step_started hv hvin)]
    exact outcomeView_run_of_pad (s := started v len) rfl rfl hverr j
  rw [hview hs hserr hsin, hview hu huerr huin, hcfg, hread]

end Sys2Proof.Machine
end

section
/-! PROOFS. One step of either agent (00_scope R16, 44_orchestration R140 to R145, 60_exceptions R168, R180): the move it
performs, reset, the standing words, and what the model makes of what the Host must not do. -/

namespace Sys2Proof.Machine

/-! ## A step performs the next move -/

theorem step_of_nextMove {s : State} {m : Move} (h : nextMove s = m) : step s = performMove m (takeMove s) := by
  rw [step, h]

theorem nextMove_of_inputs_cons {s : State} {m : Move} {rest : List Move} (h : s.inputs = m :: rest) :
    nextMove s = m := by
  simp only [nextMove, h]

theorem presentPort_of_decode {w : PortWord} {i : Instr} (h : decode (.command w) = .ok i) (s : State) :
    presentPort w s = exec i s := by
  simp only [presentPort, h]

/-- A port word with `start` = 0 is no command (R88). -/
theorem presentPort_no_start (v : Quad) (s : State) : presentPort (commandWord false v) s = .next s := by
  have hnone : decode (.command (commandWord false v)) = .error .noCommand := decodeCommand_commandWord false v
  simp only [presentPort, hnone]

/-- Settles O1: the Engine's move and the port's move each run the instruction that their word decodes to. -/
theorem stepRunsDecodedInstruction : Obligations.StepRunsDecodedInstruction := by
  unfold Obligations.StepRunsDecodedInstruction
  refine fun s i => ⟨rfl, step_eq_exec, fun rest hin hd => ?_, fun w rest hin hd => ?_, fun v rest hin => ?_⟩ <;>
    rw [step_of_nextMove (nextMove_of_inputs_cons hin), performMove]
  · exact engineStep_of_decode rfl hd
  · exact presentPort_of_decode hd _
  · exact presentPort_no_start v _

/-- Settles O2: the opcode map evaluated on each word. -/
theorem opcodeMapWordsDecode : Obligations.OpcodeMapWordsDecode := by
  unfold Obligations.OpcodeMapWordsDecode
  exact ⟨rfl, rfl, rfl, rfl, rfl, rfl, rfl, rfl, rfl, rfl, rfl, rfl, rfl, rfl, rfl, rfl, rfl⟩

/-! ## Reset (R180, R181) -/

theorem statusWord_of_wait {s : State} (hseq : s.seq = seqWait) (herr : s.err = 0) : statusWord s = 0b0000#4 :=
  statusWord_eq herr (flags_of_wait hseq)

/-- Settles O6: the reset state stands at WAIT with `ERR` = 0, and its `PM` is empty. -/
theorem resetStandsInWait : Obligations.ResetStandsInWait := by
  unfold Obligations.ResetStandsInWait
  obtain ⟨hdone, hbusy⟩ := flags_of_wait (s := State.reset) rfl
  exact ⟨rfl, rfl, statusWord_of_wait rfl rfl, hbusy, hdone, rfl, Memory.read_nil⟩

/-- Settles O7: the move answers the state after reset, with the list of moves behind it. -/
theorem resetMoveFromAnyState : Obligations.ResetMoveFromAnyState := by
  unfold Obligations.ResetMoveFromAnyState
  intro s rest hin
  refine ⟨afterReset { s with inputs := rest }, by rw [step_of_inputs_cons hin, performMove], rfl, rfl,
    statusWord_of_wait rfl rfl, Memory.read_nil, rfl, rfl, rfl⟩

/-! ## Single instructions -/

/-- LDW with an index out of range is fault entry (R90, R163). -/
theorem exec_ldw_of_le {s : State} {n : Index} (h : 16 ≤ n.toNat) :
    exec (.ldw n) s = .next (faultEntry .illegalUop s) := by
  simp only [exec, execLdw, if_neg (Nat.not_lt.mpr h), raise_eq]

/-- Settles O17: the index test of LDW and of EXPW. -/
theorem reservedIndexRaisesIllegalUop : Obligations.ReservedIndexRaisesIllegalUop := by
  unfold Obligations.ReservedIndexRaisesIllegalUop
  exact fun _ _ => ⟨exec_ldw_of_le, exec_expw_of_lt⟩

theorem blkAfterNext_toNat {blk : Quad} (nblk : Quad) (h : blk.toNat + 1 < 2 ^ 64) :
    (blkAfterNext blk nblk).toNat = blk.toNat + 1 := by
  rw [blkAfterNext, if_pos h, BitVec.toNat_add]
  exact Nat.mod_eq_of_lt h

/-- Settles O22: both values NEXT writes are there in every case, the free ones too. -/
theorem nextPastTheEndStillCompletes : Obligations.NextPastTheEndStillCompletes := by
  unfold Obligations.NextPastTheEndStillCompletes
  exact fun s _ => ⟨blkAfterNext s.blk s.nblk, afterNext s.blk s.nblk, rfl, afterNext_cases s.blk s.nblk,
    blkAfterNext_toNat s.nblk⟩

/-- Settles O24: the three words decode by the opcode map, and each meaning is to leave the state as it is. -/
theorem standingWordsChangeNothing : Obligations.StandingWordsChangeNothing := by
  unfold Obligations.StandingWordsChangeNothing
  exact fun _ => ⟨rfl, rfl, rfl, rfl, rfl, rfl⟩

/-! ## The Host's writes of `MSG` (R50, R168) -/

/-- The flag of the state on which a move is performed: the list of moves plays no part in it. -/
theorem busy_with_inputs (s : State) (rest : List Move) : busy { s with inputs := rest } = busy s :=
  busy_congr rfl

theorem step_putMsg_of_busy {s : State} {a : Quad} {b : Byte} {rest : List Move} (hbusy : busy s = true)
    (hin : s.inputs = .putMsg a b :: rest) : step s = .refused .msgWriteWhileBusy := by
  rw [step_of_inputs_cons hin, performMove, putMsg, if_pos (by rw [busy_with_inputs, hbusy])]

theorem step_putMsg_of_not_busy {s : State} {a : Quad} {b : Byte} {rest : List Move} (hbusy : busy s = false)
    (hin : s.inputs = .putMsg a b :: rest) :
    step s = .next { s with msg := s.msg.write a.toNat b, inputs := rest } := by
  rw [step_of_inputs_cons hin, performMove, putMsg, if_neg (by rw [busy_with_inputs, hbusy]; decide)]

/-- Settles O36: refused while busy; otherwise the byte reads back, and the others read as before. -/
theorem hostWritesMessageOnlyWhenNotBusy : Obligations.HostWritesMessageOnlyWhenNotBusy := by
  unfold Obligations.HostWritesMessageOnlyWhenNotBusy
  refine fun s rest a b hin => ⟨fun hbusy => step_putMsg_of_busy hbusy hin, fun hbusy => ?_⟩
  exact ⟨_, step_putMsg_of_not_busy hbusy hin, Memory.read_write_same s.msg a.toNat b,
    fun x hx => Memory.read_write_other s.msg b hx, rfl⟩

/-! ## What the Host must not do (R168) -/

/-- While the Engine is busy or faulted every port word is without effect: START is ignored, no command is none. -/
theorem presentPort_of_busy_or_faulted {s : State} (h : busy s = true ∨ faulted s = true) (w : PortWord) :
    presentPort w s = .next s := by
  have hne : s.seq ≠ seqWait ∧ s.seq ≠ seqFin := by
    rcases h with hbusy | hfaulted
    · obtain ⟨hwait, hfin, _⟩ := (busy_eq_true_iff s).mp hbusy
      exact ⟨hwait, hfin⟩
    · rw [(faulted_eq_true_iff s).mp hfaulted]
      decide
  unfold presentPort
  split
  next i hd =>
    obtain ⟨len, rfl, _⟩ := decodeCommand_eq_ok hd
    exact exec_start_of_ne hne.1 hne.2 len
  next => rfl

/-- Settles O37: START out of turn, the two refusals, PAD's stop, and the port without START. -/
theorem hostViolationsAreNoFaults : Obligations.HostViolationsAreNoFaults := by
  unfold Obligations.HostViolationsAreNoFaults
  refine fun s rest => ⟨fun w hbusy hin => ?_, fun n hdone hin => ?_, fun a b hbusy hin => step_putMsg_of_busy hbusy hin,
    fun a hin hseq hlen hfits ha hnone hbelow => ?_, fun v hin => ?_⟩
  · rw [step_of_inputs_cons hin]
    exact presentPort_of_busy_or_faulted (s := { s with inputs := rest }) hbusy w
  · have hne : s.seq ≠ seqFin := fun h => Bool.false_ne_true (hdone.symm.trans ((done_eq_true_iff s).mpr h))
    exact ((hostReadsChangeNothing s rest n).2.2 hne).2 hin
  · rw [step_eq_exec (i := .pad) hin (by rw [hseq]; rfl)]
    exact padIsStuckWithoutMessageByte s a hlen hfits ha hnone hbelow
  · rw [step_of_inputs_cons hin]
    exact presentPort_no_start v _

end Sys2Proof.Machine
end
